-- ==== Sys2Proof/Word.lean ====
section
/-! DEFINITION. The machine's one word size: registers, addresses and memory cells are all 8 bits, unsigned (R6, R8). -/

namespace Sys2Proof

/-- An 8-bit unsigned value (R6 `XLEN`, R8). -/
abbrev Byte := BitVec 8

/-- A memory address: 8 bits, because memory is 256 bytes (R6 `ADDRW`, R24). -/
abbrev Addr := BitVec 8

end Sys2Proof
end

