-- ==== Sys2Proof/Syntax.lean ====
section
/-! DEFINITION. The 13 instructions of R84, their opcodes and their four formats (R83). -/

namespace Sys2Proof

/-- One constructor per row of the opcode map (R84). A register operand is the operand byte itself: "a
register operand is a whole byte `b`, used as the register index" (R85), so the bytes 8 to 255 are
operands too, which the operand check turns into the error BadRegister (R116). -/
inductive Instr where
  | hlt
  | ldi (r imm : Byte)
  | prn (r : Byte)
  | mul (rA rB : Byte)
  | add (rA rB : Byte)
  | cmp (rA rB : Byte)
  | push (r : Byte)
  | pop (r : Byte)
  | call (r : Byte)
  | ret
  | jmp (r : Byte)
  | jeq (r : Byte)
  | jne (r : Byte)
deriving DecidableEq, Repr

/-- The dispatch table's keys, one per instruction (R84, R87). -/
inductive Opcode where
  | hlt | ldi | prn | mul | add | cmp | push | pop | call | ret | jmp | jeq | jne
deriving DecidableEq, Repr

/-- The four formats of R83. -/
inductive Format where
  /-- opcode alone -/
  | n
  /-- opcode, register index -/
  | r
  /-- opcode, register index, register index -/
  | rr
  /-- opcode, register index, 8-bit immediate -/
  | ri
deriving DecidableEq, Repr

end Sys2Proof
end

