-- ==== Sys2Proof/WellFormed.lean ====
section
/-! DEFINITION. Which instructions have only legal operands: every register index is 0 to 7 (R85, R116). -/

namespace Sys2Proof

/-- A register operand byte is legal when it is in 0 to 7 (R85). -/
abbrev regOperandOk (b : Byte) : Bool := b.toNat < 8

/-- The operand bytes the operand check looks at: `b1` for formats R and RI, `b1` and `b2` for format
RR; LDI's `b2` is an immediate and is not checked (R116). -/
def Instr.regOperands : Instr → List Byte
  | .hlt => []
  | .ldi r _ => [r]
  | .prn r => [r]
  | .mul rA rB => [rA, rB]
  | .add rA rB => [rA, rB]
  | .cmp rA rB => [rA, rB]
  | .push r => [r]
  | .pop r => [r]
  | .call r => [r]
  | .ret => []
  | .jmp r => [r]
  | .jeq r => [r]
  | .jne r => [r]

/-- Well-formed: every register operand passes the operand check (R116). -/
def Instr.wellFormed (i : Instr) : Bool := i.regOperands.all regOperandOk

end Sys2Proof
end

