-- ==== Sys2Proof/Decode.lean ====
section
/-! DEFINITION. The opcode map (R84), the decoder (R81, R87 to R91) and the encoder (R80, R83). -/

namespace Sys2Proof

/-- The opcode byte of each instruction: R84's hex column. -/
def Opcode.byte : Opcode → Byte
  | .hlt => 0x01
  | .ldi => 0x82
  | .prn => 0x47
  | .mul => 0xA2
  | .add => 0xA0
  | .cmp => 0xA7
  | .push => 0x45
  | .pop => 0x46
  | .call => 0x50
  | .ret => 0x11
  | .jmp => 0x54
  | .jeq => 0x55
  | .jne => 0x56

/-- The format of each instruction: R84's format column. -/
def Opcode.format : Opcode → Format
  | .hlt => .n
  | .ldi => .ri
  | .prn => .r
  | .mul => .rr
  | .add => .rr
  | .cmp => .rr
  | .push => .r
  | .pop => .r
  | .call => .r
  | .ret => .n
  | .jmp => .r
  | .jeq => .r
  | .jne => .r

/-- The dispatch table's keys in R84's order. -/
def Opcode.all : List Opcode :=
  [.hlt, .ldi, .prn, .mul, .add, .cmp, .push, .pop, .call, .ret, .jmp, .jeq, .jne]

/-- Dispatch: the whole opcode byte is looked up (R87, R112, C2); a byte of no row has no entry (R88). -/
def Opcode.ofByte? (b : Byte) : Option Opcode := Opcode.all.find? (fun o => o.byte == b)

/-- The `count` field, bits 7:6 of an opcode byte: how many operand bytes follow (R81). -/
def countField (b : Byte) : Nat := (b.extractLsb' 6 2).toNat

/-- How many operand bytes follow this opcode (R81). -/
def Opcode.count (o : Opcode) : Nat := countField o.byte

/-- The instruction an opcode makes of its operand bytes: the first-listed operand is `b1`, the second
`b2` (R80, R83, D20). A format that has fewer operands ignores the rest. -/
def Opcode.instr (o : Opcode) (b1 b2 : Byte) : Instr :=
  match o with
  | .hlt => .hlt
  | .ldi => .ldi b1 b2
  | .prn => .prn b1
  | .mul => .mul b1 b2
  | .add => .add b1 b2
  | .cmp => .cmp b1 b2
  | .push => .push b1
  | .pop => .pop b1
  | .call => .call b1
  | .ret => .ret
  | .jmp => .jmp b1
  | .jeq => .jeq b1
  | .jne => .jne b1

/-- What the decoder answers on a sequence of bytes. -/
inductive Decoded where
  /-- The instruction that starts the bytes, and the bytes after it. -/
  | ok (i : Instr) (rest : List Byte)
  /-- The first byte is no opcode of R84 (R88). -/
  | unknownOpcode (op : Byte)
  /-- The bytes end before the instruction does. In memory this cannot happen: addresses wrap (R54). -/
  | truncated
deriving DecidableEq, Repr

/-- Reads one instruction from the front of a sequence of bytes. Its length comes from the opcode byte
alone, `opcode[7:6] + 1` (R91). A register byte of 8 or more is decoded as it stands: it is the operand
check, not the decoder, that turns it into BadRegister (R116; log 7). -/
def decode : List Byte → Decoded
  | [] => .truncated
  | op :: rest =>
    match Opcode.ofByte? op with
    | none => .unknownOpcode op
    | some o =>
      match o.count, rest with
      | 0, rest => .ok (o.instr 0 0) rest
      | 1, b1 :: rest => .ok (o.instr b1 0) rest
      | 2, b1 :: b2 :: rest => .ok (o.instr b1 b2) rest
      | _, _ => .truncated

/-- The opcode of an instruction. -/
def Instr.opcode : Instr → Opcode
  | .hlt => .hlt
  | .ldi _ _ => .ldi
  | .prn _ => .prn
  | .mul _ _ => .mul
  | .add _ _ => .add
  | .cmp _ _ => .cmp
  | .push _ => .push
  | .pop _ => .pop
  | .call _ => .call
  | .ret => .ret
  | .jmp _ => .jmp
  | .jeq _ => .jeq
  | .jne _ => .jne

/-- The operand bytes of an instruction, in address order (R80). -/
def Instr.operands : Instr → List Byte
  | .hlt => []
  | .ldi r imm => [r, imm]
  | .prn r => [r]
  | .mul rA rB => [rA, rB]
  | .add rA rB => [rA, rB]
  | .cmp rA rB => [rA, rB]
  | .push r => [r]
  | .pop r => [r]
  | .call r => [r]
  | .ret => []
  | .jmp r => [r]
  | .jeq r => [r]
  | .jne r => [r]

/-- The bytes of an instruction at ascending addresses: opcode, then operands (R80). -/
def encode (i : Instr) : List Byte := i.opcode.byte :: i.operands

/-- The instruction's length in bytes, `count + 1` (R81). -/
def Instr.length (i : Instr) : Nat := i.opcode.count + 1

/-- The longest instruction, in bytes (R80). -/
def maxInstrBytes : Nat := 3

/-- Byte `k` of an instruction whose `nbits` bits are `w`, bit 0 the least significant bit of the first
byte; every bit from `nbits` up is 0. -/
def tableWordByte (nbits w k : Nat) : Byte := BitVec.ofNat 8 ((w % 2 ^ nbits) / 2 ^ (8 * k))

/-- The bytes of that instruction as memory holds them, up to the longest instruction. -/
def tableWordBytes (nbits w : Nat) : List Byte :=
  (List.range maxInstrBytes).map (tableWordByte nbits w)

/-- The instruction the decoder reads from an instruction of spec/opcode_table.json's bits. -/
def decodeTableWord (nbits w : Nat) : Option Instr :=
  match decode (tableWordBytes nbits w) with
  | .ok i _ => some i
  | .unknownOpcode _ => none
  | .truncated => none

end Sys2Proof
end

