-- ==== Sys2Proof/Config.lean ====
section
/-! DEFINITION. The implementation parameters of R6 that the spec leaves open, and the free values. -/

namespace Sys2Proof

/-- A reset parameter the spec leaves open: "unwritten", or concrete contents (R6, R32, D3, D4). -/
inductive Init (α : Type) where
  /-- No value at reset: the written marks start false (R32). -/
  | unwritten
  /-- Concrete contents at reset: the written marks start true (R32). -/
  | value (v : α)
deriving DecidableEq, Repr

/-- `REG_INIT`, the reset values of R0 to R6. The spec leaves it open and lets a model instantiate it
"with concrete bytes, for example all zero" (D3). DESIGN CHOICE: all zero; unsafe (log 1). -/
def Config.regInit : Init (Vector Byte 7) := .value (Vector.replicate 7 0x00)

/-- `FL_INIT`, the reset value of FL (D4). DESIGN CHOICE: zero; unsafe (log 2). -/
def Config.flInit : Init Byte := .value 0x00

/-- The free integer behind `Config.exitError`: it has no body, so no proof can see it (log 10). -/
opaque Config.exitErrorChoice : Int

/-- `EXIT_ERROR`, "any non-zero value" (R6, R215, D12): a free value that is not zero; every non-zero
integer is the value for some choice (log 10). -/
def Config.exitError : Int :=
  if Config.exitErrorChoice = 0 then 1 else Config.exitErrorChoice

/-- `TRACE_ENABLED`, true or false, with no effect on any other rule (R6, R219, D15): free (log 9). -/
opaque Config.traceEnabled : Bool

end Sys2Proof
end

