-- ==== Sys2Proof/Machine/State.lean ====
section
/-! DEFINITION. The machine's state, its reset, and the reasons a step can stop. -/

namespace Sys2Proof.Machine

/-- Memory: the (address, byte) pairs whose byte is not 0x00, by rising address. An address not listed
reads as 0x00, because memory is "zero-initialized" (R30, R38; log 16). -/
abbrev Memory := List Host.Cell

/-- The one canonical form: addresses strictly rising and below 256 (R50), no entry that equals what an
unlisted address reads as. -/
abbrev Memory.wf (m : Memory) : Prop :=
  m.Pairwise (fun c d => c.1 < d.1) ∧ ∀ c ∈ m, c.1 < 256 ∧ c.2 ≠ 0x00

/-- Why the CPU entered Error (R34, R202, R203). -/
inductive ErrCause where
  /-- The fetched byte is no opcode (R112, R202). -/
  | unknownOpcode
  /-- A register operand byte is 8 or more (R116, R203). -/
  | badRegister
deriving DecidableEq, Repr

/-- The codes of the causes (R34, D26). -/
abbrev ErrCause.code : ErrCause → Nat
  | .unknownOpcode => 1
  | .badRegister => 2

/-- The run state (R33). The error record is valid only in Error (R34), so it is that alternative's data
(log 8). -/
inductive RunState where
  | running
  | halted
  /-- Error, with `err_addr`, the address of the opcode whose step entered it, and `err_cause`. -/
  | error (addr : Addr) (cause : ErrCause)
deriving DecidableEq, Repr

/-- Everything the spec gives the machine (R20 to R39). -/
structure State where
  /-- The register file `x[0..7]`; `x[7]` is the stack pointer (R20, R21). -/
  x : Vector Byte 8
  /-- The program counter (R24). -/
  pc : Addr
  /-- The flags register: E is bit 0, G bit 1, L bit 2 (R27). -/
  fl : Byte
  /-- The 256-byte memory of code, data and stack (R30). -/
  mem : Memory
  /-- The run state, with the error record (R33, R34). -/
  run : RunState
  /-- The output stream, oldest byte first (R35). -/
  out : List Byte
  /-- The notes behind the sticky flag `wrapped` of R31: some address sum of a step that did not end in BadRegister has
  passed 255. The flag is `State.wrapped`; a step that ends in BadRegister stores nothing here (R119; log 3). -/
  wrapNoted : Bool
  /-- The written marks of `x[0]` to `x[6]`; `x[7]`'s is always true and has no bit (R32). -/
  xWritten : Vector Bool 7
  /-- The written mark of `fl` (R32). -/
  flWritten : Bool
deriving DecidableEq, Repr

/-- The things that carry a written mark (R32). -/
inductive Marked where
  | reg (r : Fin 8)
  | fl
deriving DecidableEq, Repr

/-- The model fault of R207; "its only reason is `UnwrittenRead`". -/
inductive Fault where
  /-- Raised by a handler's read of a register or of `fl` whose written mark is false (R32, R207). Safe:
  the spec gives such a step no meaning, so nothing can be proved of what follows it. No state reachable
  from `State.reset` raises it, because reset sets every mark (logs 1, 2 and 5). -/
  | unwrittenRead (what : Marked)
deriving DecidableEq, Repr

/-- Why a step has no meaning. -/
inductive Refusal where
  /-- An arm of `exec` that has no meaning yet. Safe. No arm of this model uses it. -/
  | notModelled (mnemonic : String)
  /-- Raised by `step` alone, in Halted and in Error: "in either state the CPU has no step" (R110, R117).
  Safe: the state stays as the last step left it (log 4). -/
  | runEnded
deriving DecidableEq, Repr

/-- The outcome of one instruction or one step. -/
abbrev Result := Host.Outcome State Fault Refusal

/-- The reset state for given REG_INIT and FL_INIT (R32, R38, R230). The byte that stands in a register
without a value cannot be read by any instruction (log 11). -/
def State.resetWith (regInit : Init (Vector Byte 7)) (flInit : Init Byte) : State where
  x := match regInit with
    | .unwritten => (Vector.replicate 7 0x00).push 0xF4
    | .value v => v.push 0xF4
  pc := 0x00
  fl := match flInit with
    | .unwritten => 0x00
    | .value v => v
  mem := []
  run := .running
  out := []
  wrapNoted := false
  xWritten := match regInit with
    | .unwritten => Vector.replicate 7 false
    | .value _ => Vector.replicate 7 true
  flWritten := match flInit with
    | .unwritten => false
    | .value _ => true

/-- The machine right after reset (R38, R230), with the model's REG_INIT and FL_INIT (logs 1 and 2). -/
def State.reset : State := State.resetWith Config.regInit Config.flInit

end Sys2Proof.Machine
end

