-- ==== Sys2Proof/Machine/Ops.lean ====
section
/-! DEFINITION. The named operations over memory, registers, addresses and the run state, and the entry
into Error. Every meaning is built from these. -/

namespace Sys2Proof.Machine

/-! ### Numbers -/

/-- `wrap8(v)` is `v mod 256`, for any non-negative or negative integer (R9). -/
def wrap8 (v : Int) : Byte := BitVec.ofInt 8 v

/-- The address sum `a +8 k` (R9). -/
def addrAdd (a : Addr) (k : Nat) : Addr := wrap8 (a.toNat + k)

/-- Whether the sum `a +8 k` passes 255 and so sets `wrapped` (R9, R31, R52). -/
def sumWraps (a : Addr) (k : Nat) : Bool := 255 < a.toNat + k

/-! ### Memory -/

/-- What an address that is not listed reads as: memory is zeroed at reset (R38). -/
def Memory.unlisted : Byte := 0x00

/-- `MemRead(addr, 1)` (R51). -/
def Memory.read : Memory → Addr → Byte
  | [], _ => Memory.unlisted
  | (k, v) :: rest, a => if k = a.toNat then v else Memory.read rest a

/-- An entry for `k`, or none when it would say what an unlisted address says. -/
def Memory.entry (k : Nat) (v : Byte) (rest : Memory) : Memory :=
  if v = Memory.unlisted then rest else (k, v) :: rest

/-- `MemWrite(addr, 1, v)` (R51), keeping the canonical form. -/
def Memory.write : Memory → Addr → Byte → Memory
  | [], a, v => Memory.entry a.toNat v []
  | (k, w) :: rest, a, v =>
    if k < a.toNat then (k, w) :: Memory.write rest a v
    else if k = a.toNat then Memory.entry k v rest
    else Memory.entry a.toNat v ((k, w) :: rest)

/-- The byte at an address (R51). A read changes nothing (R56). -/
def State.byteAt (s : State) (a : Addr) : Byte := s.mem.read a

/-- Stores one byte and changes only the byte at that address (R51, R56). -/
def State.storeByte (s : State) (a : Addr) (v : Byte) : State := { s with mem := s.mem.write a v }

/-! ### Registers -/

/-- The stack pointer's register number (R6 `SP_INDEX`, R21). -/
abbrev spIndex : Fin 8 := 7

/-- The value of `x[r]`. -/
def State.reg (s : State) (r : Fin 8) : Byte := s.x[r]

/-- The stack pointer, `x[7]` (R21). -/
def State.sp (s : State) : Byte := s.reg spIndex

/-- The written mark of `x[r]`; that of `x[7]` is always true (R32). -/
def State.regWritten (s : State) (r : Fin 8) : Bool :=
  if h : r.val < 7 then s.xWritten[r.val] else true

/-- `x[r] <- v`: the value and the written mark (R10, R22, R32). -/
def State.writeReg (s : State) (r : Fin 8) (v : Byte) : State :=
  { s with
    x := s.x.set r.val v
    xWritten := if h : r.val < 7 then s.xWritten.set r.val true else s.xWritten }

/-- `fl <- v`: the value and the written mark (R32, R154). -/
def State.writeFl (s : State) (v : Byte) : State := { s with fl := v, flWritten := true }

/-- `pc <- target` (R10, R25). -/
def State.setPc (s : State) (target : Addr) : State := { s with pc := target }

/-! ### Model bookkeeping, run state, output -/

/-- Notes the address sum `a +8 k` for the sticky flag `wrapped` (R31, R52). -/
def State.noteSum (s : State) (a : Addr) (k : Nat) : State :=
  { s with wrapNoted := s.wrapNoted || sumWraps a k }

/-- The generic advance `pc <- a +8 n`, where `n = count + 1` (R113). While an instruction executes, `pc`
still holds `a` (R24). It is the last statement of each meaning that has it (log 14). -/
def State.advance (s : State) (n : Nat) : State := (s.noteSum s.pc n).setPc (addrAdd s.pc n)

/-- `run <- Halted` (R118, R140). -/
def State.halt (s : State) : State := { s with run := .halted }

/-- `out <- out ++ [v]` (R10, R35). -/
def State.emit (s : State) (v : Byte) : State := { s with out := s.out ++ [v] }

/-- TAKING AN ERROR, the machine's only exception: `run <- Error`, `err_addr <- a`, `err_cause <-` the
cause, and nothing else changes (R119, R201). `pc` is `a` when an error is found. There is no return from
it: "no instruction returns from an error" (R206). -/
def State.enterError (s : State) (cause : ErrCause) : State := { s with run := .error s.pc cause }

/-! ### Stack -/

/-- `x[7] <- wrap8(x[7] - 1)`, the first statement of a push (R170, R171, R181). -/
def State.decSp (s : State) : State := s.writeReg spIndex (wrap8 (s.sp.toNat - 1))

/-- `x[7] <- wrap8(x[7] + 1)`, the last statement of a pop (R170, R172, R182). -/
def State.incSp (s : State) : State := s.writeReg spIndex (wrap8 (s.sp.toNat + 1))

end Sys2Proof.Machine
end

