-- ==== Sys2Proof/Machine/Flags.lean ====
section
/-! DEFINITION. The flags register's bits and CMP's computation, the only one that sets them (R27, R28). -/

namespace Sys2Proof.Machine

/-- E, bit 0: the last CMP found its operands equal (R27). -/
def flagE (f : Byte) : Bool := f.getLsbD 0

/-- G, bit 1: the last CMP found `x[rA] > x[rB]`, unsigned (R27). No instruction reads it (R28). -/
def flagG (f : Byte) : Bool := f.getLsbD 1

/-- L, bit 2: the last CMP found `x[rA] < x[rB]`, unsigned (R27). No instruction reads it (R28). -/
def flagL (f : Byte) : Bool := f.getLsbD 2

/-- The whole byte a CMP of `p` with `q` writes to `fl`: exactly one of E, G and L, bits 7:3 zero
(R154, D9). -/
def compareFlags (p q : Byte) : Byte :=
  if p = q then 0b00000001
  else if q.toNat < p.toNat then 0b00000010
  else 0b00000100

end Sys2Proof.Machine
end

