-- ==== Sys2Proof/Machine/Operands.lean ====
section
/-! DEFINITION. The operand forms: the operand check of a register byte (R85, R116) and the reads that can
raise the model fault UnwrittenRead (R32, R207). An immediate byte is used unchanged and needs no form
(R86). -/

namespace Sys2Proof.Machine

/-- The operand check of one register byte: 0 to 7 names a register, 8 or more ends the step in Error with
cause BadRegister (R85, R116). -/
def withReg (b : Byte) (s : State) (k : Fin 8 → Result) : Result :=
  if h : b.toNat < 8 then k ⟨b.toNat, h⟩ else .next (s.enterError .badRegister)

/-- The operand check of format RR: `b1` before `b2`, both before the handler (R116, R204). -/
def withRegs (bA bB : Byte) (s : State) (k : Fin 8 → Fin 8 → Result) : Result :=
  withReg bA s fun rA => withReg bB s fun rB => k rA rB

/-- A handler's read of `x[r]`: the model fault UnwrittenRead when its written mark is false (R32, R207). -/
def readReg (r : Fin 8) (s : State) (k : Byte → Result) : Result :=
  if s.regWritten r then k (s.reg r) else .fault (.unwrittenRead (.reg r))

/-- `p <- x[rA]; q <- x[rB]`, in that order (R10, R152 to R154). -/
def readRegs (rA rB : Fin 8) (s : State) (k : Byte → Byte → Result) : Result :=
  readReg rA s fun p => readReg rB s fun q => k p q

/-- A handler's read of `fl`: the model fault UnwrittenRead when its written mark is false (R32, R207). -/
def readFl (s : State) (k : Byte → Result) : Result :=
  if s.flWritten then k s.fl else .fault (.unwrittenRead .fl)

end Sys2Proof.Machine
end

