-- ==== Sys2Proof/Machine/Alu.lean ====
section
/-! DEFINITION. The ALU and its three instructions (spec/42_alu.md). All operands are unsigned; ADD and MUL
compute the exact integer and keep it modulo 256 (R151). -/

namespace Sys2Proof.Machine

/-- The ALU's product (R150 to R152). -/
def aluMul (p q : Byte) : Byte := wrap8 (p.toNat * q.toNat)

/-- The ALU's sum (R150, R151, R153). -/
def aluAdd (p q : Byte) : Byte := wrap8 (p.toNat + q.toNat)

/-- What MUL and ADD share: `x[rA] <- f(x[rA], x[rB])`, no flag, then the generic advance (R152, R153). -/
def aluToReg (f : Byte → Byte → Byte) (bA bB : Byte) (s : State) : Result :=
  withRegs bA bB s fun rA rB => readRegs rA rB s fun p q => .next ((s.writeReg rA (f p q)).advance 3)

/-- MUL rA, rB (R152). -/
def execMul (rA rB : Byte) (s : State) : Result := aluToReg aluMul rA rB s

/-- ADD rA, rB (R153). -/
def execAdd (rA rB : Byte) (s : State) : Result := aluToReg aluAdd rA rB s

/-- CMP rA, rB (R154): writes the whole of `fl` and no register, then the generic advance. -/
def execCmp (rA rB : Byte) (s : State) : Result :=
  withRegs rA rB s fun i j => readRegs i j s fun p q => .next ((s.writeFl (compareFlags p q)).advance 3)

end Sys2Proof.Machine
end

