-- ==== Sys2Proof/Machine/Basic.lean ====
section
/-! DEFINITION. Halt, load immediate and print (spec/41_basic.md). -/

namespace Sys2Proof.Machine

/-- HLT (R140): `run <- Halted`, then the generic advance (D8). -/
def execHlt (s : State) : Result := .next (s.halt.advance 1)

/-- LDI r, imm (R141): `x[r] <- imm`, then the generic advance. -/
def execLdi (r imm : Byte) (s : State) : Result :=
  withReg r s fun i => .next ((s.writeReg i imm).advance 3)

/-- PRN r (R142): `out <- out ++ [x[r]]`, then the generic advance. -/
def execPrn (r : Byte) (s : State) : Result :=
  withReg r s fun i => readReg i s fun v => .next ((s.emit v).advance 2)

end Sys2Proof.Machine
end

