-- ==== Sys2Proof/Machine/Control.lean ====
section
/-! DEFINITION. Control transfer (spec/44_control.md). These five set `pc` themselves; the run loop does not
advance it after them (R114). -/

namespace Sys2Proof.Machine

/-- CALL r (R181): the return address is the sum `a +8 2`; it is pushed, then `pc <- x[r]`. `x[r]` is read
after the push, so CALL R7 jumps to the decremented SP. -/
def execCall (r : Byte) (s : State) : Result :=
  withReg r s fun i =>
    let s1 := (s.noteSum s.pc 2).decSp
    let s2 := s1.storeByte s1.sp (addrAdd s.pc 2)
    readReg i s2 fun target => .next (s2.setPc target)

/-- RET (R182): `pc <- mem[SP]`, then increment SP. -/
def execRet (s : State) : Result := .next (s.setPc (s.byteAt s.sp)).incSp

/-- JMP r (R183): `pc <- x[r]`. -/
def execJmp (r : Byte) (s : State) : Result :=
  withReg r s fun i => readReg i s fun target => .next (s.setPc target)

/-- What JEQ and JNE share: `fl` is read, then either `pc <- x[r]` or `pc <- a +8 2`; `x[r]` is read on the
taken path only (R184, R185, D23). -/
def branchIf (taken : Byte → Bool) (r : Byte) (s : State) : Result :=
  withReg r s fun i => readFl s fun f =>
    if taken f then readReg i s fun target => .next (s.setPc target)
    else .next (s.advance 2)

/-- JEQ r (R184): taken when E is 1. -/
def execJeq (r : Byte) (s : State) : Result := branchIf flagE r s

/-- JNE r (R185): taken when E is 0. -/
def execJne (r : Byte) (s : State) : Result := branchIf (fun f => !flagE f) r s

end Sys2Proof.Machine
end

