-- ==== Sys2Proof/Machine/Stack.lean ====
section
/-! DEFINITION. The stack instructions (spec/43_stack.md). Statements take effect in the written order, each
register read where it is named (R10, D7). -/

namespace Sys2Proof.Machine

/-- PUSH r (R171): decrement SP, then store `x[r]` at it. `x[r]` is read after the decrement, so PUSH R7
stores the decremented SP. -/
def execPush (r : Byte) (s : State) : Result :=
  withReg r s fun i =>
    let s1 := s.decSp
    readReg i s1 fun v => .next ((s1.storeByte s1.sp v).advance 2)

/-- POP r (R172): `x[r] <- mem[SP]`, then increment SP. `x[7]` is read after the first write, so POP R7
leaves `mem[SP] + 1`. -/
def execPop (r : Byte) (s : State) : Result :=
  withReg r s fun i => .next ((s.writeReg i (s.byteAt s.sp)).incSp.advance 2)

end Sys2Proof.Machine
end

