-- ==== Sys2Proof/Machine/RunLoop.lean ====
section
/-! DEFINITION. The run loop's phases: fetch, dispatch, operand fetch, then the instruction (R110). -/

namespace Sys2Proof.Machine

/-- The opcode byte at `pc` (R111). -/
def State.fetchOpcode (s : State) : Byte := s.byteAt s.pc

/-- The operand byte at `a +8 k` (R115). -/
def State.fetchOperand (s : State) (k : Nat) : Byte := s.byteAt (addrAdd s.pc k)

/-- Whether the operand fetch at opcode address `a` forms a sum past 255: `a +8 1` when the count is 1 or 2, and
`a +8 2` when it is 2 (R52, R115). -/
def operandFetchWraps (a : Addr) (count : Nat) : Bool :=
  match count with
  | 0 => false
  | 1 => sumWraps a 1
  | _ => sumWraps a 1 || sumWraps a 2

/-- The operand fetch's note for `wrapped` (R31, R52, R115). An instruction whose operand check fails stores no note,
because its step changes nothing but the run state (R119, R201); `State.errorFetchWraps` tells of its fetch (log 3). -/
def State.noteOperandFetch (s : State) (i : Instr) : State :=
  { s with wrapNoted := s.wrapNoted || (i.wellFormed && operandFetchWraps s.pc i.opcode.count) }

/-- Whether the run ended in BadRegister by a step whose operand fetch passed 255: that step left the opcode at
`err_addr` as it was (R201), so the state shows it (log 3). -/
def State.errorFetchWraps (s : State) : Bool :=
  match s.run with
  | .running => false
  | .halted => false
  | .error _ .unknownOpcode => false
  | .error a .badRegister => operandFetchWraps a (countField (s.byteAt a))

/-- The sticky flag `wrapped` (R31): set whenever an address sum has passed 255, the operand fetch of a step that ended
in BadRegister included (R52, R115; log 3). -/
def State.wrapped (s : State) : Bool := s.wrapNoted || s.errorFetchWraps

/-- One step in Running (R110): a byte with no entry in the dispatch table ends the step in Error and
nothing else changes (R112); otherwise the operand bytes are read before the step's first write (R115) and
the instruction runs. -/
def fetchAndRun (s : State) : Result :=
  match Opcode.ofByte? s.fetchOpcode with
  | none => .next (s.enterError .unknownOpcode)
  | some o =>
    let i := o.instr (s.fetchOperand 1) (s.fetchOperand 2)
    exec i (s.noteOperandFetch i)

/-- Writes a sequence of bytes at `a`, `a +8 1`, ... -/
def Memory.writeBytes (m : Memory) (a : Addr) : List Byte → Memory
  | [] => m
  | b :: rest => Memory.writeBytes (m.write a b) (addrAdd a 1) rest

end Sys2Proof.Machine
end

