-- ==== Sys2Proof/Machine/Step.lean ====
section
/-! DEFINITION. The step function, and where it fetches its next instruction. -/

namespace Sys2Proof.Machine

/-- One step (R110). It is defined only in Running; Halted and Error are terminal, "no further fetch
occurs", "the CPU has no step" (R117; log 4). -/
def step (s : State) : Host.Outcome State Fault Refusal :=
  match s.run with
  | .running => fetchAndRun s
  | .halted => .refused .runEnded
  | .error _ _ => .refused .runEnded

/-- The state with an instruction of spec/opcode_table.json's bits stored where `step` fetches its next
instruction: at `pc` and the two addresses after it, in Running. It stands for the host's load (R214;
log 6). -/
def State.withFetchWord (s : State) (nbits w : Nat) : State :=
  { s with mem := s.mem.writeBytes s.pc (tableWordBytes nbits w), run := .running }

end Sys2Proof.Machine
end

