-- ==== Sys2Proof/Machine/HostPort.lean ====
section
/-! DEFINITION. The block's interfaces to the host (R37, R213): the load port, the output port, the status
and exit code, the trace port, and the end of a run. None of them is a step, and no step reads them. -/

namespace Sys2Proof.Machine

/-! ### Load port -/

/-- `mem[i] <- byte` for the bytes of an image from `i` on, in file order (R214). -/
def Memory.loadFrom (m : Memory) (i : Nat) : List Nat → Memory
  | [] => m
  | v :: rest => Memory.loadFrom (m.write (BitVec.ofNat 8 i) (BitVec.ofNat 8 v)) (i + 1) rest

/-- A load is admitted only when the image has at most 256 values and every one is a byte (R214, D11). -/
abbrev imageOk (image : List Nat) : Prop := image.length ≤ 256 ∧ ∀ v ∈ image, v < 256

/-- The load: it touches only `mem`, and for an image that is not admitted the block does not run
(R214, D11, D22). -/
def State.load (s : State) (image : List Nat) : Option State :=
  if imageOk image then some { s with mem := s.mem.loadFrom 0 image } else none

/-- Reset, then load: the state before the first step (R213, R232). -/
def boot (image : List Nat) : Option State := State.reset.load image

/-! ### Output port -/

/-- What the host prints for one byte of `out`: its decimal digits and a line end (R217, D10). -/
def printedLine (v : Byte) : List Char := Nat.toDigits 10 v.toNat ++ ['\n']

/-- What the host prints for the output stream: one line per byte, in program order (R217). -/
def printedText (s : State) : List Char := s.out.flatMap printedLine

/-! ### Status and exit code -/

/-- The status interface: `run`, with `err_addr` and `err_cause` in Error (R37). -/
def State.status (s : State) : RunState := s.run

/-- `err_addr`, valid only in Error (R34). -/
def State.errAddr (s : State) : Option Addr :=
  match s.run with
  | .running => none
  | .halted => none
  | .error a _ => some a

/-- `err_cause`, valid only in Error (R34). -/
def State.errCause (s : State) : Option ErrCause :=
  match s.run with
  | .running => none
  | .halted => none
  | .error _ c => some c

/-- The exit code the host reports: 0 for Halted, EXIT_ERROR for either cause of Error, nothing for a run
that has not ended (R215, D12). -/
def exitStatus : RunState → Option Int
  | .running => none
  | .halted => some 0
  | .error _ _ => some Config.exitError

/-! ### End of run -/

/-- A run ends when `run` is Halted or Error (R220). A model fault is an outcome of a step, not a state, so
no state with a model fault is an end (log 5). -/
def State.ended (s : State) : Bool :=
  match s.run with
  | .running => false
  | .halted => true
  | .error _ _ => true

/-- A register as an observer sees it: no value while it is unwritten (R32, R219). -/
def State.regView (s : State) (r : Fin 8) : Option Byte :=
  if s.regWritten r then some (s.reg r) else none

/-- `fl` as an observer sees it (R32). -/
def State.flView (s : State) : Option Byte := if s.flWritten then some s.fl else none

/-- What a run that has ended shows (R220). -/
structure Observation where
  run : RunState
  out : List Byte
  x : Vector (Option Byte) 8
  pc : Addr
  fl : Option Byte
  mem : Memory
deriving DecidableEq, Repr

/-- The observation of a run that has ended; a run that has not has none (R220). -/
def State.observation (s : State) : Option Observation :=
  if s.ended then
    some { run := s.run, out := s.out, x := Vector.ofFn s.regView, pc := s.pc, fl := s.flView, mem := s.mem }
  else none

/-! ### Trace port -/

/-- One trace record: `pc`, the three bytes from `pc` on, and the register file (R219, D15). -/
structure TraceRecord where
  pc : Addr
  b0 : Byte
  b1 : Byte
  b2 : Byte
  x : Vector (Option Byte) 8
deriving DecidableEq, Repr

/-- The record of a state. Its reads set no flag and raise no fault; an unwritten register is shown as
unwritten (R219). -/
def traceRecord (s : State) : TraceRecord where
  pc := s.pc
  b0 := s.byteAt s.pc
  b1 := s.byteAt (addrAdd s.pc 1)
  b2 := s.byteAt (addrAdd s.pc 2)
  x := Vector.ofFn s.regView

/-- What the trace port emits before the step from `s`: one record when TRACE_ENABLED is true and there is a
step (R117, R219; log 9). -/
def tracePort (enabled : Bool) (s : State) : List TraceRecord :=
  if enabled && !s.ended then [traceRecord s] else []

/-- `k` steps with the trace port connected: the records emitted, oldest first, and the outcome. -/
def tracedRun (enabled : Bool) : Nat → State → List TraceRecord × Result
  | 0, s => ([], .next s)
  | k + 1, s =>
    match step s with
    | .next t => (tracePort enabled s ++ (tracedRun enabled k t).1, (tracedRun enabled k t).2)
    | .fault f => (tracePort enabled s, .fault f)
    | .refused r => (tracePort enabled s, .refused r)

/-- The block's own trace port (R6 `TRACE_ENABLED`). -/
def blockTrace (k : Nat) (s : State) : List TraceRecord := (tracedRun Config.traceEnabled k s).1

end Sys2Proof.Machine
end

