-- ==== Sys2Proof/Safety.lean ====
section
/-! DEFINITION. The terms that statements use: legal states, frames, and when bytes in memory run as an
instruction. -/

namespace Sys2Proof.Machine

/-- Every register and `fl` holds a value (R32): what REG_INIT and FL_INIT with concrete contents give. -/
abbrev State.AllWritten (s : State) : Prop := (∀ r : Fin 8, s.regWritten r = true) ∧ s.flWritten = true

/-- The flags byte has at most one of E, G and L set and nothing else: "three mutually exclusive condition
bits" (R27), or none before the first CMP when FL_INIT is zero (log 2). -/
abbrev flLegal (f : Byte) : Prop := f = 0x00 ∨ f = 0x01 ∨ f = 0x02 ∨ f = 0x04

/-- How the memory and `pc` of a state explain that its run has ended: a Halted state stands just after an HLT
(R118), and an Error state stands at the offending opcode (R119, R201), an illegal byte for UnknownOpcode
(R202) and an instruction with an illegal register byte for BadRegister (R203). -/
def State.EndExplained (s : State) : Prop :=
  match s.run with
  | .running => True
  | .halted => s.byteAt (s.pc - 1) = 0x01
  | .error a .unknownOpcode => a = s.pc ∧ Opcode.ofByte? (s.byteAt s.pc) = none
  | .error a .badRegister =>
    a = s.pc ∧ ∃ i rest, decode [s.byteAt s.pc, s.byteAt (s.pc + 1), s.byteAt (s.pc + 2)] = .ok i rest ∧
      i.wellFormed = false

/-- A legal state: memory in its canonical form, every register and `fl` with a value, legal flags, and an
ended run explained by the memory. -/
structure State.Inv (s : State) : Prop where
  mem_wf : s.mem.wf
  allWritten : s.AllWritten
  flags : flLegal s.fl
  endExplained : s.EndExplained

/-- The register byte `b` names register `r` (R85). -/
abbrev Names (b : Byte) (r : Fin 8) : Prop := b.toNat = r.val

/-! ### Frames -/

/-- The registers outside `d` keep their values and their written marks. -/
def KeepsRegsExcept (d : Fin 8 → Prop) (s t : State) : Prop :=
  ∀ q, ¬ d q → t.reg q = s.reg q ∧ t.regWritten q = s.regWritten q

/-- No register changes. -/
def KeepsRegs (s t : State) : Prop := KeepsRegsExcept (fun _ => False) s t

/-- `fl` and its written mark are unchanged. -/
def KeepsFlags (s t : State) : Prop := t.fl = s.fl ∧ t.flWritten = s.flWritten

/-- Every byte of memory reads as before. -/
def KeepsMemory (s t : State) : Prop := ∀ a, t.byteAt a = s.byteAt a

/-- Every byte of memory but the one at `ad` reads as before. -/
def KeepsMemoryExcept (ad : Addr) (s t : State) : Prop := ∀ a, a ≠ ad → t.byteAt a = s.byteAt a

/-- Nothing is output and the run state is unchanged. -/
def KeepsOutAndRun (s t : State) : Prop := t.out = s.out ∧ t.run = s.run

/-- The generic advance by `n` bytes, modulo 256, a wrap noted (R52, R113). -/
def AdvancedBy (n : Nat) (s t : State) : Prop :=
  t.pc.toNat = (s.pc.toNat + n) % 256 ∧ t.wrapNoted = (s.wrapNoted || decide (255 < s.pc.toNat + n))

/-- `pc` is overwritten and no address sum is formed (R25, R114). -/
def JumpedTo (target : Addr) (s t : State) : Prop := t.pc = target ∧ t.wrapNoted = s.wrapNoted

/-- `s` after entering Error: the error record holds `pc`, nothing else differs (R119, R201). -/
abbrev ErrorAt (cause : ErrCause) (s : State) : State := { s with run := .error s.pc cause }

/-! ### Fetch -/

/-- The bytes stand at `pc`, `pc + 1`, ... (modulo 256). -/
abbrev State.FetchesBytes (s : State) (bytes : List Byte) : Prop :=
  ∀ k (h : k < bytes.length), s.byteAt (s.pc + BitVec.ofNat 8 k) = bytes[k]

/-- `s` after the operand fetch of instruction `i`: an operand address past 255 is noted for `wrapped` (R52, R115), unless
`i` is ill-formed, whose step stores nothing but the run state (R119; log 3). -/
def afterFetch (i : Instr) (s : State) : State :=
  { s with wrapNoted := s.wrapNoted || (i.wellFormed && decide (255 < s.pc.toNat + ((encode i).length - 1))) }

/-- The largest constant `k` of the address sums `a +8 k` that the step of `i` forms (R52): the operand fetch, and after
it the generic advance, CALL's return address or the fall-through of JEQ and JNE. A step that ends in BadRegister forms
those of its operand fetch (R115, R116), and 0 stands for no sum. -/
def largestSum (i : Instr) (s : State) : Nat :=
  if i.wellFormed then
    match i with
    | .hlt => 1
    | .ldi _ _ => 3
    | .prn _ => 2
    | .mul _ _ => 3
    | .add _ _ => 3
    | .cmp _ _ => 3
    | .push _ => 2
    | .pop _ => 2
    | .call _ => 2
    | .ret => 0
    | .jmp _ => 1
    | .jeq _ => if s.fl.getLsbD 0 then 1 else 2
    | .jne _ => if s.fl.getLsbD 0 then 2 else 1
  else (encode i).length - 1

/-- In every Running state that fetches these bytes, the step is the instruction, run after the operand fetch
(R52, R110, R115). -/
def RunsAs (bytes : List Byte) (i : Instr) : Prop :=
  ∀ s : State, s.run = .running → s.FetchesBytes bytes →
    step s = exec i (afterFetch i s)

/-! ### Outcomes and runs -/

/-- `k` steps of the machine, stopping at the first fault or refusal. -/
def runSteps : Nat → State → Result
  | 0, s => .next s
  | k + 1, s =>
    match step s with
    | .next t => runSteps k t
    | .fault f => .fault f
    | .refused r => .refused r

/-- The next state of an outcome, if it is one. -/
def nextOf : Result → Option State
  | .next t => some t
  | .fault _ => none
  | .refused _ => none

/-- The fault of an outcome, if it is one. -/
def faultOf : Result → Option Fault
  | .next _ => none
  | .fault f => some f
  | .refused _ => none

/-- An outcome with its next state changed by `f`; a fault or a refusal as it is. -/
def mapNext (f : State → State) : Result → Result
  | .next t => .next (f t)
  | .fault r => .fault r
  | .refused r => .refused r

end Sys2Proof.Machine
end

