-- ==== Sys2Proof/Certificates/Slice0/Obligations.lean ====
section
/-! DEFINITION. The statements for the provers. Each docstring names the rules of spec/ it rests on, and says
where a clause is the spec's own decision (D<n>) or the model's (log <n>). -/

open Sys2Proof Sys2Proof.Machine

/-! ### Encoding and dispatch -/

/-- Decoding an encoded instruction gives it back, whatever bytes follow, for every value of every operand byte
(R80, R81, R83, R84; the operand order is the spec's decision D20). -/
def Obligations.DecodeOfEncodeIsTheInstruction : Prop :=
  ∀ (i : Instr) (rest : List Byte), decode (encode i ++ rest) = .ok i rest

/-- Where the decoder answers an instruction, the bytes are exactly that instruction's encoding followed by the
rest, so no two byte sequences stand for one instruction (R80, R87). -/
def Obligations.DecodedBytesAreTheEncoding : Prop :=
  ∀ (bytes : List Byte) (i : Instr) (rest : List Byte), decode bytes = .ok i rest → encode i ++ rest = bytes

/-- R84, R87: dispatch on the whole opcode byte finds exactly the 13 rows of the opcode map, each with its count
and format, and nothing for any other byte. -/
def Obligations.DispatchIsTheOpcodeMap : Prop :=
  ∀ b : Byte, (Opcode.ofByte? b).map (fun o => (o, o.count, o.format)) =
    [((0b00000001 : Byte), (Opcode.hlt, 0, Format.n)), (0b10000010, (.ldi, 2, .ri)), (0b01000111, (.prn, 1, .r)),
      (0b10100010, (.mul, 2, .rr)), (0b10100000, (.add, 2, .rr)), (0b10100111, (.cmp, 2, .rr)),
      (0b01000101, (.push, 1, .r)), (0b01000110, (.pop, 1, .r)), (0b01010000, (.call, 1, .r)),
      (0b00010001, (.ret, 0, .n)), (0b01010100, (.jmp, 1, .r)), (0b01010101, (.jeq, 1, .r)),
      (0b01010110, (.jne, 1, .r))].lookup b

/-- Words written out bit by bit from the spec's encodings decode to the instructions they stand for (R84; the
operand order is D20). -/
def Obligations.WrittenOutWordsDecode : Prop :=
  decode [0b00000001] = .ok .hlt [] ∧
  decode [0b10000010, 0b00000000, 0b00001000] = .ok (.ldi 0 8) [] ∧
  decode [0b10100010, 0b00000010, 0b00000101] = .ok (.mul 2 5) [] ∧
  decode [0b01000101, 0b00000111] = .ok (.push 7) [] ∧
  decode [0b01010101, 0b00000011] = .ok (.jeq 3) [] ∧
  decode [0b11000001] = .unknownOpcode 0xC1

/-! ### The step -/

/-- When the three bytes at `pc` decode to an instruction, the step is that instruction run in the state whose
`wrapNoted` also notes an operand address past 255 (R110, R115; the wrap and its flag are the spec's decision D2), but
for an ill-formed instruction, whose BadRegister step stores no note (R119; how `wrapped` then reads is log 3). -/
def Obligations.StepRunsTheDecodedInstruction : Prop :=
  ∀ (s : State) (i : Instr) (rest : List Byte), s.run = .running →
    decode [s.byteAt s.pc, s.byteAt (s.pc + 1), s.byteAt (s.pc + 2)] = .ok i rest →
    step s = exec i (afterFetch i s)

/-- The bytes of each instruction, at `pc` and the addresses after it modulo 256, run as that instruction, for
every value of every operand byte (R80, R84, R110; the operand order is the spec's decision D20, the wrap and its flag
D2). For a register byte of 8 or more the step is BadRegister and stores no note (R119; how `wrapped` then reads is
log 3). -/
def Obligations.EachEncodingRunsAsItsInstruction : Prop :=
  ∀ b1 b2 : Byte,
    RunsAs [0x01] .hlt ∧ RunsAs [0x82, b1, b2] (.ldi b1 b2) ∧ RunsAs [0x47, b1] (.prn b1) ∧
    RunsAs [0xA2, b1, b2] (.mul b1 b2) ∧ RunsAs [0xA0, b1, b2] (.add b1 b2) ∧
    RunsAs [0xA7, b1, b2] (.cmp b1 b2) ∧ RunsAs [0x45, b1] (.push b1) ∧ RunsAs [0x46, b1] (.pop b1) ∧
    RunsAs [0x50, b1] (.call b1) ∧ RunsAs [0x11] .ret ∧ RunsAs [0x54, b1] (.jmp b1) ∧
    RunsAs [0x55, b1] (.jeq b1) ∧ RunsAs [0x56, b1] (.jne b1)

/-- A state with a fetch word runs that word's instruction in its very next step, from any state with a canonical
memory (the placing is the model's, log 6; the wrap and its flag are the spec's decision D2; that an
ill-formed word's BadRegister step stores no note is R119, how `wrapped` then reads log 3). -/
def Obligations.FetchWordRunsNext : Prop :=
  ∀ (s : State) (nbits w : Nat) (i : Instr), s.mem.wf → decodeTableWord nbits w = some i →
    step (s.withFetchWord nbits w) =
      exec i (afterFetch i (s.withFetchWord nbits w))

/-- R112: a Running step enters Error with cause UnknownOpcode, `err_addr = pc` and nothing else changed, exactly
when the byte at `pc` is none of the 13 opcodes. -/
def Obligations.UnknownOpcodeEntersError : Prop :=
  ∀ s : State, s.run = .running →
    (step s = .next { s with run := .error s.pc .unknownOpcode } ↔
      s.byteAt s.pc ∉ ([0x01, 0x82, 0x47, 0xA2, 0xA0, 0xA7, 0x45, 0x46, 0x50, 0x11, 0x54, 0x55, 0x56] : List Byte))

/-- The operand check: an instruction with a register byte of 8 or more enters Error with cause BadRegister and
changes nothing else, in every state, written or not; an instruction without one never enters Error (R85, R116,
R204; the check is the spec's decision D5 and its place D6). -/
def Obligations.BadRegisterExactlyWhenIllFormed : Prop :=
  (∀ (i : Instr) (s : State), i.wellFormed = false → exec i s = .next (ErrorAt .badRegister s)) ∧
  (∀ (i : Instr) (s t : State), i.wellFormed = true → exec i s = .next t → t.run = s.run ∨ t.run = .halted)

/-- R117: Halted and Error are terminal: there is no next state and no model fault from them. -/
def Obligations.EndedRunHasNoStep : Prop :=
  ∀ s : State, s.run ≠ .running → (∀ t, step s ≠ .next t) ∧ (∀ f, step s ≠ .fault f)

/-- Every Running step has a meaning: a refusal comes only from an ended run (R110, R117, R120, R208; the refusal's
name is log 4). -/
def Obligations.RunningStepIsNeverRefused : Prop :=
  ∀ (s : State) (r : Refusal), step s = .refused r → s.run ≠ .running ∧ r = .runEnded

/-- A Running step in which every register and `fl` holds a value answers a next state, whatever the bytes at `pc`
(R120, R207; that a register may hold no value is the spec's decision D3). -/
def Obligations.RunningStepCompletes : Prop :=
  ∀ s : State, s.run = .running → s.AllWritten → ∃ t, step s = .next t

/-- The model fault comes only from an unwritten register or an unwritten `fl` of the state (R32, R207; the spec's
decisions D3 and D4). -/
def Obligations.FaultNamesSomethingUnwritten : Prop :=
  ∀ (s : State) (f : Fault), step s = .fault f →
    (∃ r : Fin 8, f = .unwrittenRead (.reg r) ∧ r ≠ 7 ∧ s.regWritten r = false) ∨
      (f = .unwrittenRead .fl ∧ s.flWritten = false)

/-! ### Halt, load immediate, print -/

/-- HLT halts and advances by 1 (R140; the final `pc` is the spec's decision D8). -/
def Obligations.HltHaltsAndAdvances : Prop :=
  ∀ s : State, ∃ t, exec .hlt s = .next t ∧ t.run = .halted ∧ AdvancedBy 1 s t ∧ KeepsRegs s t ∧ KeepsFlags s t ∧
    KeepsMemory s t ∧ t.out = s.out

/-- LDI loads its immediate unchanged, marks the register written and advances by 3; R7 too (R141, R86, R21, R32). -/
def Obligations.LdiLoadsTheImmediate : Prop :=
  ∀ (b imm : Byte) (r : Fin 8) (s : State), Names b r →
    ∃ t, exec (.ldi b imm) s = .next t ∧ t.reg r = imm ∧ t.regWritten r = true ∧ AdvancedBy 3 s t ∧
      KeepsRegsExcept (· = r) s t ∧ KeepsFlags s t ∧ KeepsMemory s t ∧ KeepsOutAndRun s t

/-- PRN appends the register's byte to the output and advances by 2; with the register unwritten it is the model
fault UnwrittenRead (R142, R35; the fault is the spec's decision D3). -/
def Obligations.PrnAppendsTheRegister : Prop :=
  ∀ (b : Byte) (r : Fin 8) (s : State), Names b r →
    (s.regWritten r = false → exec (.prn b) s = .fault (.unwrittenRead (.reg r))) ∧
    (s.regWritten r = true →
      ∃ t, exec (.prn b) s = .next t ∧ t.out = s.out ++ [s.reg r] ∧ AdvancedBy 2 s t ∧ KeepsRegs s t ∧
        KeepsFlags s t ∧ KeepsMemory s t ∧ t.run = s.run)

/-! ### ALU -/

/-- MUL and ADD of written registers write the exact product and sum modulo 256 to the first register, also when
both operands are one register, advance by 3 and change nothing else (R152, R153, R22). -/
def Obligations.MulAndAddWriteModulo256 : Prop :=
  ∀ (bA bB : Byte) (rA rB : Fin 8) (s : State), Names bA rA → Names bB rB →
    s.regWritten rA = true → s.regWritten rB = true →
    (∃ t, exec (.mul bA bB) s = .next t ∧ (t.reg rA).toNat = ((s.reg rA).toNat * (s.reg rB).toNat) % 256 ∧
      AdvancedBy 3 s t ∧ KeepsRegsExcept (· = rA) s t ∧ t.regWritten rA = true ∧ KeepsFlags s t ∧ KeepsMemory s t ∧
      KeepsOutAndRun s t) ∧
    (∃ t, exec (.add bA bB) s = .next t ∧ (t.reg rA).toNat = ((s.reg rA).toNat + (s.reg rB).toNat) % 256 ∧
      AdvancedBy 3 s t ∧ KeepsRegsExcept (· = rA) s t ∧ t.regWritten rA = true ∧ KeepsFlags s t ∧ KeepsMemory s t ∧
      KeepsOutAndRun s t)

/-- CMP of written registers writes the whole of `fl`: 0x01 for equal, 0x02 for greater, 0x04 for less, unsigned,
whatever `fl` held, written or not; it advances by 3 and changes nothing else (R154, R27; that bits 7:3 are 0 is the
spec's decision D9). -/
def Obligations.CmpWritesTheFlags : Prop :=
  ∀ (bA bB : Byte) (rA rB : Fin 8) (s : State), Names bA rA → Names bB rB →
    s.regWritten rA = true → s.regWritten rB = true →
    ∃ t, exec (.cmp bA bB) s = .next t ∧ t.flWritten = true ∧
      ((s.reg rA).toNat = (s.reg rB).toNat → t.fl = 0x01) ∧
      ((s.reg rA).toNat > (s.reg rB).toNat → t.fl = 0x02) ∧
      ((s.reg rA).toNat < (s.reg rB).toNat → t.fl = 0x04) ∧
      AdvancedBy 3 s t ∧ KeepsRegs s t ∧ KeepsMemory s t ∧ KeepsOutAndRun s t

/-- R151: the ALU is unsigned. ADD and MUL keep the exact sum and product modulo 256, overflow sets no flag, raises
no error and leaves no trace (`pc` advances by 3 and `wrapNoted` notes that advance alone, whatever the operands), and CMP
orders the operands as unsigned numbers: E, G and L say equal, greater and less (the advance's wrap is the spec's
decision D2). -/
def Obligations.AluIsUnsignedModulo256 : Prop :=
  ∀ (bA bB : Byte) (rA rB : Fin 8) (s : State), Names bA rA → Names bB rB →
    s.regWritten rA = true → s.regWritten rB = true →
    ∃ tm ta tc, exec (.mul bA bB) s = .next tm ∧ exec (.add bA bB) s = .next ta ∧ exec (.cmp bA bB) s = .next tc ∧
      (∃ k, (s.reg rA).toNat * (s.reg rB).toNat = 256 * k + (tm.reg rA).toNat) ∧
      (∃ k, (s.reg rA).toNat + (s.reg rB).toNat = 256 * k + (ta.reg rA).toNat) ∧
      AdvancedBy 3 s tm ∧ KeepsFlags s tm ∧ KeepsRegsExcept (· = rA) s tm ∧ tm.regWritten rA = true ∧
      KeepsMemory s tm ∧ KeepsOutAndRun s tm ∧
      AdvancedBy 3 s ta ∧ KeepsFlags s ta ∧ KeepsRegsExcept (· = rA) s ta ∧ ta.regWritten rA = true ∧
      KeepsMemory s ta ∧ KeepsOutAndRun s ta ∧
      (flagE tc.fl = true ↔ (s.reg rA).toNat = (s.reg rB).toNat) ∧
      (flagG tc.fl = true ↔ (s.reg rA).toNat > (s.reg rB).toNat) ∧
      (flagL tc.fl = true ↔ (s.reg rA).toNat < (s.reg rB).toNat)

/-- MUL, ADD and CMP with an unwritten operand are the model fault UnwrittenRead, naming an operand that is unwritten
(R152 to R154, R207; the spec's decision D3). -/
def Obligations.AluFaultsOnUnwrittenOperand : Prop :=
  ∀ (bA bB : Byte) (rA rB : Fin 8) (s : State), Names bA rA → Names bB rB →
    s.regWritten rA = false ∨ s.regWritten rB = false →
    ∃ r : Fin 8, (r = rA ∨ r = rB) ∧ s.regWritten r = false ∧
      exec (.mul bA bB) s = .fault (.unwrittenRead (.reg r)) ∧
      exec (.add bA bB) s = .fault (.unwrittenRead (.reg r)) ∧
      exec (.cmp bA bB) s = .fault (.unwrittenRead (.reg r))

/-! ### Stack -/

/-- PUSH decrements SP modulo 256 and stores the register at the new SP; PUSH R7 stores the new SP. It advances by 2,
and every byte but the one at the new SP, every other register and the flags are kept. With the register unwritten it
is the model fault (R171, R170, R58; the order of effects is the spec's decision D7, the fault D3). -/
def Obligations.PushStoresBelowTheStackPointer : Prop :=
  ∀ (b : Byte) (r : Fin 8) (s : State), Names b r → s.mem.wf →
    (s.regWritten r = false → exec (.push b) s = .fault (.unwrittenRead (.reg r))) ∧
    (s.regWritten r = true →
      ∃ t, exec (.push b) s = .next t ∧ t.sp = s.decSp.sp ∧ t.sp.toNat = (s.sp.toNat + 255) % 256 ∧
        t.byteAt s.decSp.sp = (if r = 7 then s.decSp.sp else s.reg r) ∧ KeepsMemoryExcept s.decSp.sp s t ∧
        AdvancedBy 2 s t ∧ KeepsRegsExcept (· = 7) s t ∧ KeepsFlags s t ∧ KeepsOutAndRun s t)

/-- POP loads the byte at SP into the register and then increments SP modulo 256; POP R7 leaves that byte plus 1. It
advances by 2, marks the register written, clears no byte and keeps all else (R172, R170, R58; the order of effects is
the spec's decision D7, reading a slot nothing pushed to D14). -/
def Obligations.PopLoadsTheTopOfTheStack : Prop :=
  ∀ (b : Byte) (r : Fin 8) (s : State), Names b r →
    ∃ t, exec (.pop b) s = .next t ∧
      (r ≠ 7 → t.reg r = s.byteAt s.sp ∧ t.sp.toNat = (s.sp.toNat + 1) % 256) ∧
      (r = 7 → t.sp.toNat = ((s.byteAt s.sp).toNat + 1) % 256) ∧ t.regWritten r = true ∧
      AdvancedBy 2 s t ∧ KeepsRegsExcept (fun q => q = r ∨ q = 7) s t ∧ KeepsFlags s t ∧ KeepsMemory s t ∧
      KeepsOutAndRun s t

/-! ### Control transfer -/

/-- CALL pushes `pc + 2` modulo 256 and jumps to the register; CALL R7 jumps to the new SP. With the register
unwritten it is the model fault (R181, R180, R58; the order of effects is the spec's decision D7, the wrap D2, the
fault D3). -/
def Obligations.CallPushesTheReturnAddress : Prop :=
  ∀ (b : Byte) (r : Fin 8) (s : State), Names b r → s.mem.wf →
    (s.regWritten r = false → exec (.call b) s = .fault (.unwrittenRead (.reg r))) ∧
    (s.regWritten r = true →
      ∃ t, exec (.call b) s = .next t ∧ t.pc = (if r = 7 then s.decSp.sp else s.reg r) ∧
        t.sp = s.decSp.sp ∧ t.sp.toNat = (s.sp.toNat + 255) % 256 ∧
        (t.byteAt s.decSp.sp).toNat = (s.pc.toNat + 2) % 256 ∧ KeepsMemoryExcept s.decSp.sp s t ∧
        t.wrapNoted = (s.wrapNoted || decide (255 < s.pc.toNat + 2)) ∧ KeepsRegsExcept (· = 7) s t ∧ KeepsFlags s t ∧
        KeepsOutAndRun s t)

/-- RET jumps to the byte at SP and increments SP modulo 256, in every state (R182, R180, R58; returning through a slot
nothing pushed to is the spec's decision D14). -/
def Obligations.RetPopsTheProgramCounter : Prop :=
  ∀ s : State, ∃ t, exec .ret s = .next t ∧ JumpedTo (s.byteAt s.sp) s t ∧ t.sp.toNat = (s.sp.toNat + 1) % 256 ∧
    KeepsRegsExcept (· = 7) s t ∧ KeepsFlags s t ∧ KeepsMemory s t ∧ KeepsOutAndRun s t

/-- JMP jumps to the register; with it unwritten it is the model fault (R183; the fault is the spec's decision D3). -/
def Obligations.JmpJumpsToTheRegister : Prop :=
  ∀ (b : Byte) (r : Fin 8) (s : State), Names b r →
    (s.regWritten r = false → exec (.jmp b) s = .fault (.unwrittenRead (.reg r))) ∧
    (s.regWritten r = true →
      ∃ t, exec (.jmp b) s = .next t ∧ JumpedTo (s.reg r) s t ∧ KeepsRegs s t ∧ KeepsFlags s t ∧ KeepsMemory s t ∧
        KeepsOutAndRun s t)

/-- JEQ and JNE with `fl` written: on the value of bit 0 one is taken and jumps to its register, and the other falls
through to `pc + 2` modulo 256 without reading its register; nothing else changes (R184, R185; the wrap is the spec's
decision D2, that the register is read on the taken path only D23). -/
def Obligations.BranchesFollowTheEqualFlag : Prop :=
  ∀ (b : Byte) (r : Fin 8) (s : State), Names b r → s.flWritten = true →
    (s.fl.getLsbD 0 = true → s.regWritten r = true →
      ∃ t, exec (.jeq b) s = .next t ∧ JumpedTo (s.reg r) s t ∧ KeepsRegs s t ∧ KeepsFlags s t ∧ KeepsMemory s t ∧
        KeepsOutAndRun s t) ∧
    (s.fl.getLsbD 0 = false →
      ∃ t, exec (.jeq b) s = .next t ∧ AdvancedBy 2 s t ∧ KeepsRegs s t ∧ KeepsFlags s t ∧ KeepsMemory s t ∧
        KeepsOutAndRun s t) ∧
    (s.fl.getLsbD 0 = false → s.regWritten r = true →
      ∃ t, exec (.jne b) s = .next t ∧ JumpedTo (s.reg r) s t ∧ KeepsRegs s t ∧ KeepsFlags s t ∧ KeepsMemory s t ∧
        KeepsOutAndRun s t) ∧
    (s.fl.getLsbD 0 = true →
      ∃ t, exec (.jne b) s = .next t ∧ AdvancedBy 2 s t ∧ KeepsRegs s t ∧ KeepsFlags s t ∧ KeepsMemory s t ∧
        KeepsOutAndRun s t)

/-- JEQ and JNE are the model fault when `fl` is unwritten, and when the branch is taken and its register is unwritten
(R184, R185, R207; the spec's decisions D3, D4 and D23). -/
def Obligations.BranchesFaultOnUnwritten : Prop :=
  ∀ (b : Byte) (r : Fin 8) (s : State), Names b r →
    (s.flWritten = false → exec (.jeq b) s = .fault (.unwrittenRead .fl) ∧
      exec (.jne b) s = .fault (.unwrittenRead .fl)) ∧
    (s.flWritten = true → s.regWritten r = false →
      (s.fl.getLsbD 0 = true → exec (.jeq b) s = .fault (.unwrittenRead (.reg r))) ∧
      (s.fl.getLsbD 0 = false → exec (.jne b) s = .fault (.unwrittenRead (.reg r))))

/-! ### Rules about the whole machine -/

/-- CMP is the only instruction that writes `fl`; only JEQ and JNE read it, and they read only bit 0: any other bits, and
for the other instructions any `fl` at all, give the same outcome (R28). CMP overwrites all eight bits, whatever `fl`
held (R154; the whole-byte write is the spec's decision D9). -/
def Obligations.OnlyCmpWritesFlagsOnlyBranchesReadThem : Prop :=
  (∀ (i : Instr) (s t : State), (∀ bA bB, i ≠ .cmp bA bB) → exec i s = .next t → KeepsFlags s t) ∧
  (∀ (bA bB f : Byte) (w : Bool) (s : State), (Instr.cmp bA bB).wellFormed = true →
    exec (.cmp bA bB) { s with fl := f, flWritten := w } = exec (.cmp bA bB) s) ∧
  (∀ (i : Instr) (s : State) (f : Byte),
    ((∀ b, i ≠ .jeq b ∧ i ≠ .jne b) ∨ f.getLsbD 0 = s.fl.getLsbD 0) →
    mapNext (fun t => { t with fl := 0 }) (exec i { s with fl := f }) =
      mapNext (fun t => { t with fl := 0 }) (exec i s))

/-- Apart from the fetch, PUSH and CALL alone write memory, and only at the decremented SP; POP and RET alone read it,
and only at SP (R58, R63; C4). -/
def Obligations.OnlyStackInstructionsReachMemory : Prop :=
  (∀ (i : Instr) (s t : State) (a : Addr), s.mem.wf → exec i s = .next t → t.byteAt a ≠ s.byteAt a →
    (∃ b, i = .push b ∨ i = .call b) ∧ a = s.decSp.sp) ∧
  (∀ (i : Instr) (s : State) (m : Memory), (((∀ b, i ≠ .pop b) ∧ i ≠ .ret) ∨ m.read s.sp = s.mem.read s.sp) →
    mapNext (fun t => { t with mem := [] }) (exec i { s with mem := m }) =
      mapNext (fun t => { t with mem := [] }) (exec i s))

/-- Only PRN outputs, one byte, the value of the register its operand byte names (R35, R142, R217). -/
def Obligations.OnlyPrnOutputs : Prop :=
  ∀ s t : State, step s = .next t →
    t.out = s.out ∨
      (s.byteAt s.pc = 0x47 ∧ ∃ r : Fin 8, Names (s.byteAt (s.pc + 1)) r ∧ t.out = s.out ++ [s.reg r])

/-- The run state leaves Running exactly so: to Halted when the opcode is HLT, to Error with `err_addr = pc` when the
byte is no opcode or a register byte is illegal (R33, R118, R119; the cause BadRegister is the spec's decision D5). -/
def Obligations.RunStateTransitions : Prop :=
  ∀ s t : State, step s = .next t →
    (t.run = .halted ↔ s.byteAt s.pc = 0x01) ∧
    (∀ a, t.run = .error a .unknownOpcode ↔ a = s.pc ∧ Opcode.ofByte? (s.byteAt s.pc) = none) ∧
    (∀ a, t.run = .error a .badRegister ↔ a = s.pc ∧ ∃ i rest,
      decode [s.byteAt s.pc, s.byteAt (s.pc + 1), s.byteAt (s.pc + 2)] = .ok i rest ∧ i.wellFormed = false)

/-- An error is precise: the step that enters Error changes nothing but the run state with its record, for both causes
and for every operand fetch (R119, R201; the spec's decision D18). What the flag `wrapped` reads after it is
WrappedIsSetExactlyByASumPast255 (log 3). -/
def Obligations.ErrorsArePrecise : Prop :=
  ∀ (s t : State) (a : Addr) (c : ErrCause), step s = .next t → t.run = .error a c →
    t = { s with run := .error s.pc c }

/-- A step does not depend on the output stream or on what is noted for `wrapped`: states that differ only there have outcomes that
differ only there (R121). -/
def Obligations.StepIgnoresOutputAndWrapped : Prop :=
  ∀ (s : State) (o : List Byte) (w : Bool),
    mapNext (fun t => { t with out := [], wrapNoted := false }) (step { s with out := o, wrapNoted := w }) =
      mapNext (fun t => { t with out := [], wrapNoted := false }) (step s)

/-- Along every run `wrapped` is sticky, written marks are never lost, output is only appended to, and at most one byte
a step (R31, R32, R35; `wrapped` is the spec's decision D2, the marks D3). -/
def Obligations.RunsOnlyAccumulate : Prop :=
  ∀ (k : Nat) (s t : State), runSteps k s = .next t →
    (s.wrapped = true → t.wrapped = true) ∧ (∀ r, s.regWritten r = true → t.regWritten r = true) ∧
    (s.flWritten = true → t.flWritten = true) ∧ ∃ v, t.out = s.out ++ v ∧ v.length ≤ k

/-! ### Invariants -/

/-- The reset state is legal. That every register and `fl` holds a value at reset is the model's choice (logs 1
and 2). -/
def Obligations.ResetStateIsLegal : Prop := State.reset.Inv

/-- Every step from a legal state gives a legal state: memory stays canonical, nothing becomes unwritten, the flags stay
legal, and an ended run is explained by the bytes at `pc` (R27, R32, R51, R118, R119; rests on the spec's decisions D3,
D5, D8, D9 and D18). -/
def Obligations.StepKeepsLegality : Prop :=
  ∀ s t : State, s.Inv → step s = .next t → t.Inv

/-- From a legal state no run, however long, meets the model fault: it either goes on or has ended, and if it has ended
within the steps asked for the refusal says so (R117, R120, R207; log 4). -/
def Obligations.LegalRunsNeverFault : Prop :=
  ∀ (k : Nat) (s : State), s.Inv →
    (∃ t, runSteps k s = .next t ∧ t.Inv) ∨
      (runSteps k s = .refused .runEnded ∧ ∃ j t, j < k ∧ runSteps j s = .next t ∧ t.ended = true)

/-- A canonical memory is determined by the bytes it reads: two of them that read alike at every address are equal data
(R30, R38). -/
def Obligations.CanonicalMemoriesThatReadAlikeAreEqual : Prop :=
  ∀ m n : Memory, m.wf → n.wf → (∀ a, m.read a = n.read a) → m = n

/-! ### Reset, load and the other interfaces -/

/-- Reset, for every REG_INIT and FL_INIT: `pc` 0, SP 0xF4 and written, every byte of memory 0x00, Running, no output,
`wrapped` false; R0 to R6 and `fl` hold the given contents with their marks true, or have their marks false when the
parameter is "unwritten" (R32, R38, R230; `wrapped` is the spec's decision D2, the marks D3 and D4). -/
def Obligations.ResetPutsEveryPieceOfState : Prop :=
  ∀ (ri : Init (Vector Byte 7)) (fi : Init Byte),
    (State.resetWith ri fi).pc = 0x00 ∧ (State.resetWith ri fi).sp = 0xF4 ∧
    (State.resetWith ri fi).regWritten 7 = true ∧ (∀ a, (State.resetWith ri fi).byteAt a = 0x00) ∧
    (State.resetWith ri fi).run = .running ∧ (State.resetWith ri fi).out = [] ∧
    (State.resetWith ri fi).wrapped = false ∧
    (∀ v, ri = .value v → ∀ r : Fin 7, (State.resetWith ri fi).reg r.castSucc = v[r] ∧
      (State.resetWith ri fi).regWritten r.castSucc = true) ∧
    (ri = .unwritten → ∀ r : Fin 7, (State.resetWith ri fi).regWritten r.castSucc = false) ∧
    (∀ v, fi = .value v → (State.resetWith ri fi).fl = v ∧ (State.resetWith ri fi).flWritten = true) ∧
    (fi = .unwritten → (State.resetWith ri fi).flWritten = false)

/-- The load: an image of at most 256 bytes is placed from address 0 on, every other byte stays 0x00 and nothing but
memory changes; for any other image the block does not run (R214; the bounds are the spec's decision D11). -/
def Obligations.LoadPlacesTheImage : Prop :=
  ∀ image : List Nat,
    (imageOk image → ∃ s, boot image = some s ∧ s = { State.reset with mem := s.mem } ∧
      ∀ a : Addr, (s.byteAt a).toNat = image.getD a.toNat 0) ∧
    (¬ imageOk image → boot image = none)

/-- R231: after reset and load the machine is Running at address 0, and its first fetch reads the first byte of the
image. -/
def Obligations.FirstFetchIsTheFirstImageByte : Prop :=
  ∀ (v : Nat) (rest : List Nat) (s : State), boot (v :: rest) = some s →
    s.run = .running ∧ s.pc = 0x00 ∧ s.fetchOpcode = s.byteAt 0x00 ∧ (s.byteAt 0x00).toNat = v

/-- The trace port has no effect: connected or not, enabled or not, a run has the same outcome; disabled it emits
nothing, enabled one record before each step (R219; the record's content is the spec's decision D15). That a state
whose run has ended emits nothing is the model's inference from R117, and that a step which ends in the model fault has
emitted its record is the model's too (both log 9). -/
def Obligations.TracingHasNoEffect : Prop :=
  (∀ (e : Bool) (k : Nat) (s : State), (tracedRun e k s).2 = runSteps k s) ∧
  (∀ (k : Nat) (s : State), (tracedRun false k s).1 = []) ∧
  (∀ (k : Nat) (s t : State), runSteps k s = .next t →
    (tracedRun true k s).1.length = k ∧ (tracedRun true (k + 1) s).1 =
      (tracedRun true k s).1 ++ (if t.ended then [] else [traceRecord t]))

/-- The exit code: 0 for Halted, one and the same non-zero value for both causes of Error, none while Running (R215; the
value of EXIT_ERROR is free, D12 and log 10). -/
def Obligations.ExitCodeIsZeroExactlyWhenHalted : Prop :=
  ∀ r : RunState, (exitStatus r = some 0 ↔ r = .halted) ∧ (exitStatus r = none ↔ r = .running) ∧
    ∀ a b c d, exitStatus (.error a c) = exitStatus (.error b d)

/-! ### Instructions in sequence -/

/-- LDI then PRN on a register outputs exactly the immediate, for every register and every byte (R141, R142; the property
E3). -/
def Obligations.LdiThenPrnOutputsTheImmediate : Prop :=
  ∀ (b v : Byte) (s : State), b.toNat < 8 →
    ∃ t u, exec (.ldi b v) s = .next t ∧ exec (.prn b) t = .next u ∧ u.out = s.out ++ [v]

/-- PUSH then POP into another register copies the value and restores SP, when neither is R7; PUSH R7 then POP gives the
decremented SP instead (R171, R172, C6, E5; the order of effects is the spec's decision D7). -/
def Obligations.PushThenPopCopies : Prop :=
  ∀ (b c : Byte) (r q : Fin 8) (s : State), Names b r → Names c q → q ≠ 7 → s.mem.wf → s.regWritten r = true →
    ∃ t u, exec (.push b) s = .next t ∧ exec (.pop c) t = .next u ∧ u.sp = s.sp ∧
      (r ≠ 7 → u.reg q = s.reg r) ∧ (r = 7 → (u.reg q).toNat = (s.sp.toNat + 255) % 256)

/-- CALL then RET comes back to the address after the CALL, with SP restored (R181, R182, E6; the wrap is the spec's
decision D2). -/
def Obligations.CallThenRetReturns : Prop :=
  ∀ (b : Byte) (r : Fin 8) (s : State), Names b r → s.mem.wf → s.regWritten r = true →
    ∃ t u, exec (.call b) s = .next t ∧ exec .ret t = .next u ∧ u.pc.toNat = (s.pc.toNat + 2) % 256 ∧ u.sp = s.sp

/-- CMP then JEQ jumps exactly when the compared registers were equal, and CMP then JNE exactly when they were not; the
other way each falls through (R154, R184, R185, E7). -/
def Obligations.CompareThenBranch : Prop :=
  ∀ (bA bB b : Byte) (rA rB r : Fin 8) (s : State), Names bA rA → Names bB rB → Names b r →
    s.regWritten rA = true → s.regWritten rB = true → s.regWritten r = true →
    ∃ t u v, exec (.cmp bA bB) s = .next t ∧ exec (.jeq b) t = .next u ∧ exec (.jne b) t = .next v ∧
      (s.reg rA = s.reg rB → u.pc = s.reg r ∧ v.pc.toNat = (s.pc.toNat + 5) % 256) ∧
      (s.reg rA ≠ s.reg rB → v.pc = s.reg r ∧ u.pc.toNat = (s.pc.toNat + 5) % 256)

/-- A store is seen by a later fetch: after PUSH, a jump to the new SP fetches the pushed byte as its opcode (R61, R235). -/
def Obligations.PushedByteIsFetchedAsOpcode : Prop :=
  ∀ (b c : Byte) (r q : Fin 8) (s t u : State), Names b r → Names c q → r ≠ 7 → s.mem.wf →
    exec (.push b) s = .next t → t.reg q = t.sp → exec (.jmp c) t = .next u → u.fetchOpcode = s.reg r

/-- A jump to itself never ends: the state is Running and unchanged after any number of steps, where the jump's own bytes
do not pass address 255 (R120, R183). -/
def Obligations.SelfJumpRunsForever : Prop :=
  ∀ (r : Fin 8) (s : State), s.run = .running → s.pc.toNat < 255 → s.byteAt s.pc = 0x54 →
    Names (s.byteAt (s.pc + 1)) r → s.regWritten r = true → s.reg r = s.pc → ∀ k, runSteps k s = .next s

/-! ### The flag `wrapped` -/

/-- After a step the flag `wrapped` reads true exactly when it did before or the step formed an address sum past 255: an
operand fetch, the generic advance, CALL's return address or a fall-through, the operand fetch of a step that ends in
BadRegister included; a byte that is no opcode forms none (R31, R52, R115; the wrap and its flag are the spec's decision
D2; that the flag of a BadRegister step is read from the Error state is the model's, log 3). -/
def Obligations.WrappedIsSetExactlyByASumPast255 : Prop :=
  ∀ s t : State, step s = .next t →
    (∀ i rest, decode [s.byteAt s.pc, s.byteAt (s.pc + 1), s.byteAt (s.pc + 2)] = .ok i rest →
      t.wrapped = (s.wrapped || decide (255 < s.pc.toNat + largestSum i s))) ∧
    (Opcode.ofByte? (s.byteAt s.pc) = none → t.wrapped = s.wrapped)
end

