-- ==== Sys2Proof/Laws/Decode.lean ====
section
/-! SUPPORT. What the opcode map and dispatch give. -/

namespace Sys2Proof

/-- Dispatch finds each instruction's own opcode byte (R84, R87). -/
@[simp] theorem Opcode.ofByte?_byte (o : Opcode) : Opcode.ofByte? o.byte = some o := by
  cases o <;> decide

/-- A byte that dispatches is the opcode's own byte: the whole byte is compared (R87). -/
theorem Opcode.byte_of_ofByte? {b : Byte} {o : Opcode} (h : Opcode.ofByte? b = some o) : b = o.byte := by
  have := List.find?_some h
  exact (eq_of_beq this).symm

/-- The operand count of each opcode, from its byte, is its format's (R81, R83). -/
theorem Opcode.count_eq (o : Opcode) :
    o.count = match o.format with
      | .n => 0
      | .r => 1
      | .rr => 2
      | .ri => 2 := by
  cases o <;> decide

/-- No opcode has more than two operand bytes (R80, R89). -/
theorem Opcode.count_le (o : Opcode) : o.count ≤ 2 := by
  cases o <;> decide

end Sys2Proof
end

