-- ==== Sys2Proof/Laws/State.lean ====
section
/-! SUPPORT. One lemma per field per update of the state, each true by rfl, so that no later proof unfolds a
record update; then what an update does to the values read through `reg`, `regWritten` and `byteAt`. -/

namespace Sys2Proof.Machine

variable (s : State)

/-! ### writeReg -/

@[simp] theorem State.writeReg_x (r : Fin 8) (v : Byte) : (s.writeReg r v).x = s.x.set r.val v := rfl
@[simp] theorem State.writeReg_pc (r : Fin 8) (v : Byte) : (s.writeReg r v).pc = s.pc := rfl
@[simp] theorem State.writeReg_fl (r : Fin 8) (v : Byte) : (s.writeReg r v).fl = s.fl := rfl
@[simp] theorem State.writeReg_mem (r : Fin 8) (v : Byte) : (s.writeReg r v).mem = s.mem := rfl
@[simp] theorem State.writeReg_run (r : Fin 8) (v : Byte) : (s.writeReg r v).run = s.run := rfl
@[simp] theorem State.writeReg_out (r : Fin 8) (v : Byte) : (s.writeReg r v).out = s.out := rfl
@[simp] theorem State.writeReg_wrapNoted (r : Fin 8) (v : Byte) : (s.writeReg r v).wrapNoted = s.wrapNoted := rfl
@[simp] theorem State.writeReg_xWritten (r : Fin 8) (v : Byte) : (s.writeReg r v).xWritten = if h : r.val < 7 then s.xWritten.set r.val true else s.xWritten := rfl
@[simp] theorem State.writeReg_flWritten (r : Fin 8) (v : Byte) : (s.writeReg r v).flWritten = s.flWritten := rfl

/-! ### writeFl -/

@[simp] theorem State.writeFl_x (v : Byte) : (s.writeFl v).x = s.x := rfl
@[simp] theorem State.writeFl_pc (v : Byte) : (s.writeFl v).pc = s.pc := rfl
@[simp] theorem State.writeFl_fl (v : Byte) : (s.writeFl v).fl = v := rfl
@[simp] theorem State.writeFl_mem (v : Byte) : (s.writeFl v).mem = s.mem := rfl
@[simp] theorem State.writeFl_run (v : Byte) : (s.writeFl v).run = s.run := rfl
@[simp] theorem State.writeFl_out (v : Byte) : (s.writeFl v).out = s.out := rfl
@[simp] theorem State.writeFl_wrapNoted (v : Byte) : (s.writeFl v).wrapNoted = s.wrapNoted := rfl
@[simp] theorem State.writeFl_xWritten (v : Byte) : (s.writeFl v).xWritten = s.xWritten := rfl
@[simp] theorem State.writeFl_flWritten (v : Byte) : (s.writeFl v).flWritten = true := rfl

/-! ### setPc -/

@[simp] theorem State.setPc_x (a : Addr) : (s.setPc a).x = s.x := rfl
@[simp] theorem State.setPc_pc (a : Addr) : (s.setPc a).pc = a := rfl
@[simp] theorem State.setPc_fl (a : Addr) : (s.setPc a).fl = s.fl := rfl
@[simp] theorem State.setPc_mem (a : Addr) : (s.setPc a).mem = s.mem := rfl
@[simp] theorem State.setPc_run (a : Addr) : (s.setPc a).run = s.run := rfl
@[simp] theorem State.setPc_out (a : Addr) : (s.setPc a).out = s.out := rfl
@[simp] theorem State.setPc_wrapNoted (a : Addr) : (s.setPc a).wrapNoted = s.wrapNoted := rfl
@[simp] theorem State.setPc_xWritten (a : Addr) : (s.setPc a).xWritten = s.xWritten := rfl
@[simp] theorem State.setPc_flWritten (a : Addr) : (s.setPc a).flWritten = s.flWritten := rfl

/-! ### noteSum -/

@[simp] theorem State.noteSum_x (a : Addr) (k : Nat) : (s.noteSum a k).x = s.x := rfl
@[simp] theorem State.noteSum_pc (a : Addr) (k : Nat) : (s.noteSum a k).pc = s.pc := rfl
@[simp] theorem State.noteSum_fl (a : Addr) (k : Nat) : (s.noteSum a k).fl = s.fl := rfl
@[simp] theorem State.noteSum_mem (a : Addr) (k : Nat) : (s.noteSum a k).mem = s.mem := rfl
@[simp] theorem State.noteSum_run (a : Addr) (k : Nat) : (s.noteSum a k).run = s.run := rfl
@[simp] theorem State.noteSum_out (a : Addr) (k : Nat) : (s.noteSum a k).out = s.out := rfl
@[simp] theorem State.noteSum_wrapNoted (a : Addr) (k : Nat) : (s.noteSum a k).wrapNoted = (s.wrapNoted || sumWraps a k) := rfl
@[simp] theorem State.noteSum_xWritten (a : Addr) (k : Nat) : (s.noteSum a k).xWritten = s.xWritten := rfl
@[simp] theorem State.noteSum_flWritten (a : Addr) (k : Nat) : (s.noteSum a k).flWritten = s.flWritten := rfl

/-! ### advance -/

@[simp] theorem State.advance_x (n : Nat) : (s.advance n).x = s.x := rfl
@[simp] theorem State.advance_pc (n : Nat) : (s.advance n).pc = addrAdd s.pc n := rfl
@[simp] theorem State.advance_fl (n : Nat) : (s.advance n).fl = s.fl := rfl
@[simp] theorem State.advance_mem (n : Nat) : (s.advance n).mem = s.mem := rfl
@[simp] theorem State.advance_run (n : Nat) : (s.advance n).run = s.run := rfl
@[simp] theorem State.advance_out (n : Nat) : (s.advance n).out = s.out := rfl
@[simp] theorem State.advance_wrapNoted (n : Nat) : (s.advance n).wrapNoted = (s.wrapNoted || sumWraps s.pc n) := rfl
@[simp] theorem State.advance_xWritten (n : Nat) : (s.advance n).xWritten = s.xWritten := rfl
@[simp] theorem State.advance_flWritten (n : Nat) : (s.advance n).flWritten = s.flWritten := rfl

/-! ### halt -/

@[simp] theorem State.halt_x : (s.halt).x = s.x := rfl
@[simp] theorem State.halt_pc : (s.halt).pc = s.pc := rfl
@[simp] theorem State.halt_fl : (s.halt).fl = s.fl := rfl
@[simp] theorem State.halt_mem : (s.halt).mem = s.mem := rfl
@[simp] theorem State.halt_run : (s.halt).run = .halted := rfl
@[simp] theorem State.halt_out : (s.halt).out = s.out := rfl
@[simp] theorem State.halt_wrapNoted : (s.halt).wrapNoted = s.wrapNoted := rfl
@[simp] theorem State.halt_xWritten : (s.halt).xWritten = s.xWritten := rfl
@[simp] theorem State.halt_flWritten : (s.halt).flWritten = s.flWritten := rfl

/-! ### emit -/

@[simp] theorem State.emit_x (v : Byte) : (s.emit v).x = s.x := rfl
@[simp] theorem State.emit_pc (v : Byte) : (s.emit v).pc = s.pc := rfl
@[simp] theorem State.emit_fl (v : Byte) : (s.emit v).fl = s.fl := rfl
@[simp] theorem State.emit_mem (v : Byte) : (s.emit v).mem = s.mem := rfl
@[simp] theorem State.emit_run (v : Byte) : (s.emit v).run = s.run := rfl
@[simp] theorem State.emit_out (v : Byte) : (s.emit v).out = s.out ++ [v] := rfl
@[simp] theorem State.emit_wrapNoted (v : Byte) : (s.emit v).wrapNoted = s.wrapNoted := rfl
@[simp] theorem State.emit_xWritten (v : Byte) : (s.emit v).xWritten = s.xWritten := rfl
@[simp] theorem State.emit_flWritten (v : Byte) : (s.emit v).flWritten = s.flWritten := rfl

/-! ### enterError -/

@[simp] theorem State.enterError_x (c : ErrCause) : (s.enterError c).x = s.x := rfl
@[simp] theorem State.enterError_pc (c : ErrCause) : (s.enterError c).pc = s.pc := rfl
@[simp] theorem State.enterError_fl (c : ErrCause) : (s.enterError c).fl = s.fl := rfl
@[simp] theorem State.enterError_mem (c : ErrCause) : (s.enterError c).mem = s.mem := rfl
@[simp] theorem State.enterError_run (c : ErrCause) : (s.enterError c).run = .error s.pc c := rfl
@[simp] theorem State.enterError_out (c : ErrCause) : (s.enterError c).out = s.out := rfl
@[simp] theorem State.enterError_wrapNoted (c : ErrCause) : (s.enterError c).wrapNoted = s.wrapNoted := rfl
@[simp] theorem State.enterError_xWritten (c : ErrCause) : (s.enterError c).xWritten = s.xWritten := rfl
@[simp] theorem State.enterError_flWritten (c : ErrCause) : (s.enterError c).flWritten = s.flWritten := rfl

/-! ### storeByte -/

@[simp] theorem State.storeByte_x (a : Addr) (v : Byte) : (s.storeByte a v).x = s.x := rfl
@[simp] theorem State.storeByte_pc (a : Addr) (v : Byte) : (s.storeByte a v).pc = s.pc := rfl
@[simp] theorem State.storeByte_fl (a : Addr) (v : Byte) : (s.storeByte a v).fl = s.fl := rfl
@[simp] theorem State.storeByte_mem (a : Addr) (v : Byte) : (s.storeByte a v).mem = s.mem.write a v := rfl
@[simp] theorem State.storeByte_run (a : Addr) (v : Byte) : (s.storeByte a v).run = s.run := rfl
@[simp] theorem State.storeByte_out (a : Addr) (v : Byte) : (s.storeByte a v).out = s.out := rfl
@[simp] theorem State.storeByte_wrapNoted (a : Addr) (v : Byte) : (s.storeByte a v).wrapNoted = s.wrapNoted := rfl
@[simp] theorem State.storeByte_xWritten (a : Addr) (v : Byte) : (s.storeByte a v).xWritten = s.xWritten := rfl
@[simp] theorem State.storeByte_flWritten (a : Addr) (v : Byte) : (s.storeByte a v).flWritten = s.flWritten := rfl

/-! ### decSp -/

@[simp] theorem State.decSp_pc : (s.decSp).pc = s.pc := rfl
@[simp] theorem State.decSp_fl : (s.decSp).fl = s.fl := rfl
@[simp] theorem State.decSp_mem : (s.decSp).mem = s.mem := rfl
@[simp] theorem State.decSp_run : (s.decSp).run = s.run := rfl
@[simp] theorem State.decSp_out : (s.decSp).out = s.out := rfl
@[simp] theorem State.decSp_wrapNoted : (s.decSp).wrapNoted = s.wrapNoted := rfl
@[simp] theorem State.decSp_xWritten : (s.decSp).xWritten = s.xWritten := rfl
@[simp] theorem State.decSp_flWritten : (s.decSp).flWritten = s.flWritten := rfl

/-! ### incSp -/

@[simp] theorem State.incSp_pc : (s.incSp).pc = s.pc := rfl
@[simp] theorem State.incSp_fl : (s.incSp).fl = s.fl := rfl
@[simp] theorem State.incSp_mem : (s.incSp).mem = s.mem := rfl
@[simp] theorem State.incSp_run : (s.incSp).run = s.run := rfl
@[simp] theorem State.incSp_out : (s.incSp).out = s.out := rfl
@[simp] theorem State.incSp_wrapNoted : (s.incSp).wrapNoted = s.wrapNoted := rfl
@[simp] theorem State.incSp_xWritten : (s.incSp).xWritten = s.xWritten := rfl
@[simp] theorem State.incSp_flWritten : (s.incSp).flWritten = s.flWritten := rfl

/-! ### Values read through the accessors -/

@[simp] theorem State.byteAt_writeReg (r : Fin 8) (v : Byte) (a : Addr) : (s.writeReg r v).byteAt a = s.byteAt a := rfl
@[simp] theorem State.reg_writeFl (v : Byte) (q : Fin 8) : (s.writeFl v).reg q = s.reg q := rfl
@[simp] theorem State.regWritten_writeFl (v : Byte) (q : Fin 8) : (s.writeFl v).regWritten q = s.regWritten q := rfl
@[simp] theorem State.sp_writeFl (v : Byte) : (s.writeFl v).sp = s.sp := rfl
@[simp] theorem State.byteAt_writeFl (v : Byte) (a : Addr) : (s.writeFl v).byteAt a = s.byteAt a := rfl
@[simp] theorem State.reg_setPc (a : Addr) (q : Fin 8) : (s.setPc a).reg q = s.reg q := rfl
@[simp] theorem State.regWritten_setPc (a : Addr) (q : Fin 8) : (s.setPc a).regWritten q = s.regWritten q := rfl
@[simp] theorem State.sp_setPc (a : Addr) : (s.setPc a).sp = s.sp := rfl
@[simp] theorem State.byteAt_setPc (a : Addr) (c : Addr) : (s.setPc a).byteAt c = s.byteAt c := rfl
@[simp] theorem State.reg_noteSum (a : Addr) (k : Nat) (q : Fin 8) : (s.noteSum a k).reg q = s.reg q := rfl
@[simp] theorem State.regWritten_noteSum (a : Addr) (k : Nat) (q : Fin 8) : (s.noteSum a k).regWritten q = s.regWritten q := rfl
@[simp] theorem State.sp_noteSum (a : Addr) (k : Nat) : (s.noteSum a k).sp = s.sp := rfl
@[simp] theorem State.byteAt_noteSum (a : Addr) (k : Nat) (c : Addr) : (s.noteSum a k).byteAt c = s.byteAt c := rfl
@[simp] theorem State.reg_advance (n : Nat) (q : Fin 8) : (s.advance n).reg q = s.reg q := rfl
@[simp] theorem State.regWritten_advance (n : Nat) (q : Fin 8) : (s.advance n).regWritten q = s.regWritten q := rfl
@[simp] theorem State.sp_advance (n : Nat) : (s.advance n).sp = s.sp := rfl
@[simp] theorem State.byteAt_advance (n : Nat) (a : Addr) : (s.advance n).byteAt a = s.byteAt a := rfl
@[simp] theorem State.reg_halt (q : Fin 8) : (s.halt).reg q = s.reg q := rfl
@[simp] theorem State.regWritten_halt (q : Fin 8) : (s.halt).regWritten q = s.regWritten q := rfl
@[simp] theorem State.sp_halt : (s.halt).sp = s.sp := rfl
@[simp] theorem State.byteAt_halt (a : Addr) : (s.halt).byteAt a = s.byteAt a := rfl
@[simp] theorem State.reg_emit (v : Byte) (q : Fin 8) : (s.emit v).reg q = s.reg q := rfl
@[simp] theorem State.regWritten_emit (v : Byte) (q : Fin 8) : (s.emit v).regWritten q = s.regWritten q := rfl
@[simp] theorem State.sp_emit (v : Byte) : (s.emit v).sp = s.sp := rfl
@[simp] theorem State.byteAt_emit (v : Byte) (a : Addr) : (s.emit v).byteAt a = s.byteAt a := rfl
@[simp] theorem State.reg_enterError (c : ErrCause) (q : Fin 8) : (s.enterError c).reg q = s.reg q := rfl
@[simp] theorem State.regWritten_enterError (c : ErrCause) (q : Fin 8) : (s.enterError c).regWritten q = s.regWritten q := rfl
@[simp] theorem State.sp_enterError (c : ErrCause) : (s.enterError c).sp = s.sp := rfl
@[simp] theorem State.byteAt_enterError (c : ErrCause) (a : Addr) : (s.enterError c).byteAt a = s.byteAt a := rfl
@[simp] theorem State.reg_storeByte (a : Addr) (v : Byte) (q : Fin 8) : (s.storeByte a v).reg q = s.reg q := rfl
@[simp] theorem State.regWritten_storeByte (a : Addr) (v : Byte) (q : Fin 8) : (s.storeByte a v).regWritten q = s.regWritten q := rfl
@[simp] theorem State.sp_storeByte (a : Addr) (v : Byte) : (s.storeByte a v).sp = s.sp := rfl
@[simp] theorem State.byteAt_decSp (a : Addr) : (s.decSp).byteAt a = s.byteAt a := rfl
@[simp] theorem State.byteAt_incSp (a : Addr) : (s.incSp).byteAt a = s.byteAt a := rfl

theorem State.reg_writeReg (r q : Fin 8) (v : Byte) :
    (s.writeReg r v).reg q = if q = r then v else s.reg q := by
  simp only [State.reg, State.writeReg, Fin.getElem_fin, Vector.getElem_set, Fin.ext_iff, eq_comm]

@[simp] theorem State.reg_writeReg_self (r : Fin 8) (v : Byte) : (s.writeReg r v).reg r = v := by
  simp [State.reg_writeReg]

theorem State.reg_writeReg_of_ne (r q : Fin 8) (v : Byte) (h : q ≠ r) :
    (s.writeReg r v).reg q = s.reg q := by
  simp [State.reg_writeReg, h]

theorem State.regWritten_writeReg (r q : Fin 8) (v : Byte) :
    (s.writeReg r v).regWritten q = (decide (q = r) || s.regWritten q) := by
  unfold State.regWritten
  by_cases hq : q.val < 7
  · by_cases hr : r.val < 7
    · rw [dif_pos hq, dif_pos hq]
      simp only [State.writeReg_xWritten, dif_pos hr, Vector.getElem_set]
      by_cases e : r.val = q.val
      · simp [e, Fin.ext_iff]
      · simp [e, Fin.ext_iff, Ne.symm e]
    · have e : q ≠ r := by rintro rfl; exact hr hq
      simp [hq, hr, e]
  · simp [hq]

@[simp] theorem State.regWritten_writeReg_self (r : Fin 8) (v : Byte) :
    (s.writeReg r v).regWritten r = true := by
  simp [State.regWritten_writeReg]

/-- `x[7]`'s written mark is always true (R32). -/
@[simp] theorem State.regWritten_sp : s.regWritten spIndex = true := rfl

theorem State.reg_spIndex : s.reg spIndex = s.sp := rfl

theorem State.sp_writeReg (r : Fin 8) (v : Byte) :
    (s.writeReg r v).sp = if r = spIndex then v else s.sp := by
  simp only [State.sp, State.reg_writeReg, eq_comm]

@[simp] theorem State.sp_decSp : s.decSp.sp = wrap8 (s.sp.toNat - 1) :=
  State.reg_writeReg_self s _ _

@[simp] theorem State.sp_incSp : s.incSp.sp = wrap8 (s.sp.toNat + 1) :=
  State.reg_writeReg_self s _ _

theorem State.reg_decSp_of_ne (q : Fin 8) (h : q ≠ spIndex) : s.decSp.reg q = s.reg q :=
  State.reg_writeReg_of_ne s _ _ _ h

theorem State.reg_decSp (q : Fin 8) : s.decSp.reg q = if q = spIndex then s.decSp.sp else s.reg q := by
  split
  · rename_i h; rw [h]; rfl
  · rename_i h; exact State.reg_decSp_of_ne s q h

theorem State.reg_incSp_of_ne (q : Fin 8) (h : q ≠ spIndex) : s.incSp.reg q = s.reg q :=
  State.reg_writeReg_of_ne s _ _ _ h

@[simp] theorem State.regWritten_decSp (q : Fin 8) : s.decSp.regWritten q = s.regWritten q := rfl

@[simp] theorem State.regWritten_incSp (q : Fin 8) : s.incSp.regWritten q = s.regWritten q := rfl

/-! ### The reset state -/

@[simp] theorem State.reset_mem : State.reset.mem = [] := rfl
@[simp] theorem State.reset_run : State.reset.run = .running := rfl
@[simp] theorem State.reset_pc : State.reset.pc = 0x00 := rfl

end Sys2Proof.Machine
end

