-- ==== Sys2Proof/Laws/Ops.lean ====
section
/-! SUPPORT. What the number operations and CMP's flag computation give. -/

namespace Sys2Proof.Machine

theorem wrap8_toNat (v : Int) : (wrap8 v).toNat = (v % 256).toNat := by
  simp [wrap8, BitVec.toNat_ofInt]

/-- `wrap8` of a natural number keeps it modulo 256 (R9, R22). -/
theorem wrap8_natCast_toNat (n : Nat) : (wrap8 (n : Int)).toNat = n % 256 := by
  rw [wrap8_toNat]; omega

/-- The address sum, as a number (R9, R52). -/
theorem addrAdd_toNat (a : Addr) (k : Nat) : (addrAdd a k).toNat = (a.toNat + k) % 256 := by
  rw [addrAdd, wrap8_toNat]; omega

/-- The address sum is the sum of 8-bit words. -/
theorem addrAdd_eq (a : Addr) (k : Nat) : addrAdd a k = a + BitVec.ofNat 8 k := by
  apply BitVec.eq_of_toNat_eq
  rw [addrAdd_toNat, BitVec.toNat_add, BitVec.toNat_ofNat]; omega

/-- Decrementing the stack pointer is the 8-bit difference (R170). -/
theorem wrap8_pred (a : Byte) : wrap8 (a.toNat - 1) = a - 1 := by
  apply BitVec.eq_of_toNat_eq
  have := a.isLt
  rw [wrap8_toNat, BitVec.toNat_sub]
  simp only [BitVec.reduceToNat]; omega

/-- Incrementing the stack pointer is the 8-bit sum (R170). -/
theorem wrap8_succ (a : Byte) : wrap8 (a.toNat + 1) = a + 1 := by
  apply BitVec.eq_of_toNat_eq
  rw [wrap8_toNat, BitVec.toNat_add]
  simp only [BitVec.reduceToNat]; omega

theorem sumWraps_eq (a : Addr) (k : Nat) : sumWraps a k = decide (255 < a.toNat + k) := rfl

/-- Exactly one of the three condition bytes, by the unsigned comparison (R27, R154). -/
theorem compareFlags_cases (p q : Byte) :
    (p = q ∧ compareFlags p q = 0x01) ∨ (q.toNat < p.toNat ∧ compareFlags p q = 0x02) ∨
      (p.toNat < q.toNat ∧ compareFlags p q = 0x04) := by
  unfold compareFlags
  by_cases e : p = q
  · simp [e]
  · have hne : p.toNat ≠ q.toNat := fun h => e (BitVec.toNat_inj.mp h)
    by_cases g : q.toNat < p.toNat
    · simp [e, g]
    · simp [e, g]; omega

/-- E after a CMP says whether the operands were equal (R27). -/
theorem flagE_compareFlags (p q : Byte) : flagE (compareFlags p q) = decide (p = q) := by
  rcases compareFlags_cases p q with ⟨e, h⟩ | ⟨e, h⟩ | ⟨e, h⟩
  · simp [e, flagE]; unfold compareFlags; simp
  · have : p ≠ q := by rintro rfl; omega
    simp [h, this, flagE]
  · have : p ≠ q := by rintro rfl; omega
    simp [h, this, flagE]

end Sys2Proof.Machine
end

