-- ==== Sys2Proof/Laws/Operands.lean ====
section
/-! SUPPORT. The operand forms: what each answers, and, for each, everything it can do when it answers a next
state. -/

namespace Sys2Proof.Machine

theorem withReg_ok (b : Byte) (r : Fin 8) (h : b.toNat = r.val) (s : State) (k : Fin 8 → Result) :
    withReg b s k = k r := by
  have hr : b.toNat < 8 := by omega
  have e : (⟨b.toNat, hr⟩ : Fin 8) = r := Fin.ext h
  simp [withReg, hr, e]

theorem withReg_bad (b : Byte) (h : 8 ≤ b.toNat) (s : State) (k : Fin 8 → Result) :
    withReg b s k = .next (s.enterError .badRegister) := by
  simp [withReg, Nat.not_lt.mpr h]

/-- The operand check either finds the error BadRegister or goes on with the register the byte names. -/
theorem withReg_cases (b : Byte) (s : State) (k : Fin 8 → Result) :
    (8 ≤ b.toNat ∧ withReg b s k = .next (s.enterError .badRegister)) ∨
      ∃ r : Fin 8, b.toNat = r.val ∧ withReg b s k = k r := by
  by_cases h : b.toNat < 8
  · exact .inr ⟨⟨b.toNat, h⟩, rfl, withReg_ok b ⟨b.toNat, h⟩ rfl s k⟩
  · exact .inl ⟨by omega, withReg_bad b (by omega) s k⟩

theorem withRegs_ok (bA bB : Byte) (rA rB : Fin 8) (hA : bA.toNat = rA.val) (hB : bB.toNat = rB.val)
    (s : State) (k : Fin 8 → Fin 8 → Result) : withRegs bA bB s k = k rA rB := by
  rw [withRegs, withReg_ok bA rA hA, withReg_ok bB rB hB]

/-- The operand check of format RR: BadRegister when either byte is 8 or more, whichever (R116, R204). -/
theorem withRegs_bad (bA bB : Byte) (h : 8 ≤ bA.toNat ∨ 8 ≤ bB.toNat) (s : State)
    (k : Fin 8 → Fin 8 → Result) : withRegs bA bB s k = .next (s.enterError .badRegister) := by
  rw [withRegs]
  rcases withReg_cases bA s (fun rA => withReg bB s fun rB => k rA rB) with ⟨_, e⟩ | ⟨r, hr, e⟩
  · exact e
  · rw [e, withReg_bad bB (by omega)]

theorem withRegs_cases (bA bB : Byte) (s : State) (k : Fin 8 → Fin 8 → Result) :
    ((8 ≤ bA.toNat ∨ 8 ≤ bB.toNat) ∧ withRegs bA bB s k = .next (s.enterError .badRegister)) ∨
      ∃ rA rB : Fin 8, bA.toNat = rA.val ∧ bB.toNat = rB.val ∧ withRegs bA bB s k = k rA rB := by
  by_cases hA : bA.toNat < 8
  · by_cases hB : bB.toNat < 8
    · exact .inr ⟨⟨_, hA⟩, ⟨_, hB⟩, rfl, rfl, withRegs_ok bA bB ⟨_, hA⟩ ⟨_, hB⟩ rfl rfl s k⟩
    · exact .inl ⟨.inr (by omega), withRegs_bad _ _ (.inr (by omega)) s k⟩
  · exact .inl ⟨.inl (by omega), withRegs_bad _ _ (.inl (by omega)) s k⟩

theorem readReg_ok (r : Fin 8) (s : State) (h : s.regWritten r = true) (k : Byte → Result) :
    readReg r s k = k (s.reg r) := by
  simp [readReg, h]

theorem readReg_unwritten (r : Fin 8) (s : State) (h : s.regWritten r = false) (k : Byte → Result) :
    readReg r s k = .fault (.unwrittenRead (.reg r)) := by
  simp [readReg, h]

/-- If a read of a register goes on to a next state, the register had its written mark (R207). -/
theorem readReg_next {r : Fin 8} {s t : State} {k : Byte → Result} (h : readReg r s k = .next t) :
    s.regWritten r = true ∧ k (s.reg r) = .next t := by
  unfold readReg at h
  split at h
  · exact ⟨‹_›, h⟩
  · cases h

theorem readRegs_ok (rA rB : Fin 8) (s : State) (hA : s.regWritten rA = true) (hB : s.regWritten rB = true)
    (k : Byte → Byte → Result) : readRegs rA rB s k = k (s.reg rA) (s.reg rB) := by
  rw [readRegs, readReg_ok rA s hA, readReg_ok rB s hB]

theorem readRegs_next {rA rB : Fin 8} {s t : State} {k : Byte → Byte → Result}
    (h : readRegs rA rB s k = .next t) :
    s.regWritten rA = true ∧ s.regWritten rB = true ∧ k (s.reg rA) (s.reg rB) = .next t := by
  obtain ⟨hA, h⟩ := readReg_next h
  obtain ⟨hB, h⟩ := readReg_next h
  exact ⟨hA, hB, h⟩

theorem readFl_ok (s : State) (h : s.flWritten = true) (k : Byte → Result) : readFl s k = k s.fl := by
  simp [readFl, h]

theorem readFl_unwritten (s : State) (h : s.flWritten = false) (k : Byte → Result) :
    readFl s k = .fault (.unwrittenRead .fl) := by
  simp [readFl, h]

theorem readFl_next {s t : State} {k : Byte → Result} (h : readFl s k = .next t) :
    s.flWritten = true ∧ k s.fl = .next t := by
  unfold readFl at h
  split at h
  · exact ⟨‹_›, h⟩
  · cases h

/-- Everything the shared ALU operation can do when it answers a next state (R116, R152, R153). -/
theorem aluToReg_next {f : Byte → Byte → Byte} {bA bB : Byte} {s t : State}
    (h : aluToReg f bA bB s = .next t) :
    ((8 ≤ bA.toNat ∨ 8 ≤ bB.toNat) ∧ t = s.enterError .badRegister) ∨
      ∃ rA rB : Fin 8, bA.toNat = rA.val ∧ bB.toNat = rB.val ∧ s.regWritten rA = true ∧
        s.regWritten rB = true ∧ t = (s.writeReg rA (f (s.reg rA) (s.reg rB))).advance 3 := by
  unfold aluToReg at h
  rcases withRegs_cases bA bB s (fun rA rB => readRegs rA rB s fun p q =>
    .next ((s.writeReg rA (f p q)).advance 3)) with ⟨hb, e⟩ | ⟨rA, rB, hA, hB, e⟩
  · rw [e] at h; cases h; exact .inl ⟨hb, rfl⟩
  · rw [e] at h
    obtain ⟨wA, wB, h⟩ := readRegs_next h
    cases h
    exact .inr ⟨rA, rB, hA, hB, wA, wB, rfl⟩

/-- Everything the shared branch can do when it answers a next state (R116, R184, R185). -/
theorem branchIf_next {taken : Byte → Bool} {b : Byte} {s t : State} (h : branchIf taken b s = .next t) :
    (8 ≤ b.toNat ∧ t = s.enterError .badRegister) ∨
      ∃ r : Fin 8, b.toNat = r.val ∧ s.flWritten = true ∧
        ((taken s.fl = true ∧ s.regWritten r = true ∧ t = s.setPc (s.reg r)) ∨
          (taken s.fl = false ∧ t = s.advance 2)) := by
  unfold branchIf at h
  rcases withReg_cases b s (fun i => readFl s fun f =>
    if taken f then readReg i s fun target => .next (s.setPc target) else .next (s.advance 2))
    with ⟨hb, e⟩ | ⟨r, hr, e⟩
  · rw [e] at h; cases h; exact .inl ⟨hb, rfl⟩
  · rw [e] at h
    obtain ⟨hf, h⟩ := readFl_next h
    refine .inr ⟨r, hr, hf, ?_⟩
    split at h
    · obtain ⟨hw, h⟩ := readReg_next h
      cases h
      exact .inl ⟨‹_›, hw, rfl⟩
    · rename_i ht
      cases h
      exact .inr ⟨Bool.eq_false_iff.mpr ht, rfl⟩

end Sys2Proof.Machine
end

