-- ==== Sys2Proof/Laws/Exec.lean ====
section
/-! SUPPORT. One equation per meaning, for operands that pass their checks: the instruction as a chain of named
updates. Then everything an instruction can do when it answers a next state. -/

namespace Sys2Proof.Machine

variable {b bA bB : Byte} {r rA rB : Fin 8} (s : State)

theorem exec_hlt : exec .hlt s = .next (s.halt.advance 1) := rfl

theorem exec_ldi (h : b.toNat = r.val) (imm : Byte) :
    exec (.ldi b imm) s = .next ((s.writeReg r imm).advance 3) := by
  simp only [exec, execLdi]
  rw [withReg_ok b r h]

theorem exec_prn (h : b.toNat = r.val) (w : s.regWritten r = true) :
    exec (.prn b) s = .next ((s.emit (s.reg r)).advance 2) := by
  simp only [exec, execPrn]
  rw [withReg_ok b r h, readReg_ok r s w]

theorem aluToReg_ok (f : Byte → Byte → Byte) (hA : bA.toNat = rA.val) (hB : bB.toNat = rB.val)
    (wA : s.regWritten rA = true) (wB : s.regWritten rB = true) :
    aluToReg f bA bB s = .next ((s.writeReg rA (f (s.reg rA) (s.reg rB))).advance 3) := by
  unfold aluToReg
  rw [withRegs_ok bA bB rA rB hA hB, readRegs_ok rA rB s wA wB]

theorem exec_mul (hA : bA.toNat = rA.val) (hB : bB.toNat = rB.val) (wA : s.regWritten rA = true)
    (wB : s.regWritten rB = true) :
    exec (.mul bA bB) s = .next ((s.writeReg rA (aluMul (s.reg rA) (s.reg rB))).advance 3) :=
  aluToReg_ok s aluMul hA hB wA wB

theorem exec_add (hA : bA.toNat = rA.val) (hB : bB.toNat = rB.val) (wA : s.regWritten rA = true)
    (wB : s.regWritten rB = true) :
    exec (.add bA bB) s = .next ((s.writeReg rA (aluAdd (s.reg rA) (s.reg rB))).advance 3) :=
  aluToReg_ok s aluAdd hA hB wA wB

theorem exec_cmp (hA : bA.toNat = rA.val) (hB : bB.toNat = rB.val) (wA : s.regWritten rA = true)
    (wB : s.regWritten rB = true) :
    exec (.cmp bA bB) s = .next ((s.writeFl (compareFlags (s.reg rA) (s.reg rB))).advance 3) := by
  simp only [exec, execCmp]
  rw [withRegs_ok bA bB rA rB hA hB, readRegs_ok rA rB s wA wB]

theorem exec_push (h : b.toNat = r.val) (w : s.regWritten r = true) :
    exec (.push b) s = .next ((s.decSp.storeByte s.decSp.sp (s.decSp.reg r)).advance 2) := by
  simp only [exec, execPush]
  rw [withReg_ok b r h, readReg_ok r s.decSp (by simpa using w)]

theorem exec_pop (h : b.toNat = r.val) :
    exec (.pop b) s = .next ((s.writeReg r (s.byteAt s.sp)).incSp.advance 2) := by
  simp only [exec, execPop]
  rw [withReg_ok b r h]

/-- The state of a CALL between its push and its jump. -/
theorem exec_call (h : b.toNat = r.val) (w : s.regWritten r = true) :
    exec (.call b) s =
      .next (((s.noteSum s.pc 2).decSp.storeByte s.decSp.sp (addrAdd s.pc 2)).setPc (s.decSp.reg r)) := by
  simp only [exec, execCall]
  rw [withReg_ok b r h, readReg_ok r _ (by simpa using w)]
  rfl

theorem exec_ret : exec .ret s = .next (s.setPc (s.byteAt s.sp)).incSp := rfl

theorem exec_jmp (h : b.toNat = r.val) (w : s.regWritten r = true) :
    exec (.jmp b) s = .next (s.setPc (s.reg r)) := by
  simp only [exec, execJmp]
  rw [withReg_ok b r h, readReg_ok r s w]

theorem branchIf_taken (p : Byte → Bool) (h : b.toNat = r.val) (hf : s.flWritten = true) (hp : p s.fl = true)
    (w : s.regWritten r = true) : branchIf p b s = .next (s.setPc (s.reg r)) := by
  unfold branchIf
  rw [withReg_ok b r h, readFl_ok s hf, if_pos hp, readReg_ok r s w]

theorem branchIf_notTaken (p : Byte → Bool) (h : b.toNat = r.val) (hf : s.flWritten = true)
    (hp : p s.fl = false) : branchIf p b s = .next (s.advance 2) := by
  unfold branchIf
  rw [withReg_ok b r h, readFl_ok s hf, hp]; rfl

/-- Everything an instruction can do when it answers a next state: the error BadRegister, or the one chain of
updates of its kind. -/
theorem exec_next {i : Instr} {s t : State} (h : exec i s = .next t) :
    (i.wellFormed = false ∧ t = s.enterError .badRegister) ∨
    (i = .hlt ∧ t = s.halt.advance 1) ∨
    (∃ (b imm : Byte) (r : Fin 8), i = .ldi b imm ∧ b.toNat = r.val ∧ t = (s.writeReg r imm).advance 3) ∨
    (∃ (b : Byte) (r : Fin 8), i = .prn b ∧ b.toNat = r.val ∧ t = (s.emit (s.reg r)).advance 2) ∨
    (∃ (bA bB : Byte) (rA rB : Fin 8), bA.toNat = rA.val ∧ bB.toNat = rB.val ∧
      ((i = .mul bA bB ∧ t = (s.writeReg rA (aluMul (s.reg rA) (s.reg rB))).advance 3) ∨
        (i = .add bA bB ∧ t = (s.writeReg rA (aluAdd (s.reg rA) (s.reg rB))).advance 3) ∨
        (i = .cmp bA bB ∧ t = (s.writeFl (compareFlags (s.reg rA) (s.reg rB))).advance 3))) ∨
    (∃ (b : Byte) (r : Fin 8), i = .push b ∧ b.toNat = r.val ∧
      t = (s.decSp.storeByte s.decSp.sp (s.decSp.reg r)).advance 2) ∨
    (∃ (b : Byte) (r : Fin 8), i = .pop b ∧ b.toNat = r.val ∧
      t = (s.writeReg r (s.byteAt s.sp)).incSp.advance 2) ∨
    (∃ (b : Byte) (r : Fin 8), i = .call b ∧ b.toNat = r.val ∧
      t = ((s.noteSum s.pc 2).decSp.storeByte s.decSp.sp (addrAdd s.pc 2)).setPc (s.decSp.reg r)) ∨
    (i = .ret ∧ t = (s.setPc (s.byteAt s.sp)).incSp) ∨
    (∃ (b : Byte) (r : Fin 8), i = .jmp b ∧ b.toNat = r.val ∧ t = s.setPc (s.reg r)) ∨
    (∃ (b : Byte) (r : Fin 8), (i = .jeq b ∨ i = .jne b) ∧ b.toNat = r.val ∧
      (t = s.setPc (s.reg r) ∨ t = s.advance 2)) := by
  have one : ∀ {b : Byte} {k : Fin 8 → Result}, withReg b s k = .next t →
      (8 ≤ b.toNat ∧ t = s.enterError .badRegister) ∨ ∃ r : Fin 8, b.toNat = r.val ∧ k r = .next t := by
    intro b k h
    rcases withReg_cases b s k with ⟨hb, e⟩ | ⟨r, hr, e⟩
    · rw [e] at h; cases h; exact .inl ⟨hb, rfl⟩
    · rw [e] at h; exact .inr ⟨r, hr, h⟩
  have bad1 : ∀ {b : Byte}, 8 ≤ b.toNat → [b].all regOperandOk = false := by
    intro b hb; simp [regOperandOk]; omega
  have bad2 : ∀ {b c : Byte}, (8 ≤ b.toNat ∨ 8 ≤ c.toNat) → [b, c].all regOperandOk = false := by
    intro b c hb; simp [regOperandOk]; omega
  cases i with
  | hlt => cases h; exact .inr (.inl ⟨rfl, rfl⟩)
  | ldi b imm =>
    simp only [exec, execLdi] at h
    rcases one (b := b) h with ⟨hb, e⟩ | ⟨r, hr, h⟩
    · exact .inl ⟨bad1 hb, e⟩
    · cases h; exact .inr (.inr (.inl ⟨b, imm, r, rfl, hr, rfl⟩))
  | prn b =>
    simp only [exec, execPrn] at h
    rcases one (b := b) h with ⟨hb, e⟩ | ⟨r, hr, h⟩
    · exact .inl ⟨bad1 hb, e⟩
    · obtain ⟨_, h⟩ := readReg_next h
      cases h; exact .inr (.inr (.inr (.inl ⟨b, r, rfl, hr, rfl⟩)))
  | mul a b =>
    rcases aluToReg_next h with ⟨hb, e⟩ | ⟨rA, rB, hA, hB, _, _, e⟩
    · exact .inl ⟨bad2 hb, e⟩
    · exact .inr (.inr (.inr (.inr (.inl ⟨a, b, rA, rB, hA, hB, .inl ⟨rfl, e⟩⟩))))
  | add a b =>
    rcases aluToReg_next h with ⟨hb, e⟩ | ⟨rA, rB, hA, hB, _, _, e⟩
    · exact .inl ⟨bad2 hb, e⟩
    · exact .inr (.inr (.inr (.inr (.inl ⟨a, b, rA, rB, hA, hB, .inr (.inl ⟨rfl, e⟩)⟩))))
  | cmp a b =>
    simp only [exec, execCmp] at h
    rcases withRegs_cases a b s (fun i j => readRegs i j s fun p q =>
      .next ((s.writeFl (compareFlags p q)).advance 3)) with ⟨hb, e⟩ | ⟨rA, rB, hA, hB, e⟩
    · rw [e] at h; cases h; exact .inl ⟨bad2 hb, rfl⟩
    · rw [e] at h
      obtain ⟨_, _, h⟩ := readRegs_next h
      cases h
      exact .inr (.inr (.inr (.inr (.inl ⟨a, b, rA, rB, hA, hB, .inr (.inr ⟨rfl, rfl⟩)⟩))))
  | push b =>
    simp only [exec, execPush] at h
    rcases one (b := b) h with ⟨hb, e⟩ | ⟨r, hr, h⟩
    · exact .inl ⟨bad1 hb, e⟩
    · obtain ⟨_, h⟩ := readReg_next h
      cases h; exact .inr (.inr (.inr (.inr (.inr (.inl ⟨b, r, rfl, hr, rfl⟩)))))
  | pop b =>
    simp only [exec, execPop] at h
    rcases one (b := b) h with ⟨hb, e⟩ | ⟨r, hr, h⟩
    · exact .inl ⟨bad1 hb, e⟩
    · cases h; exact .inr (.inr (.inr (.inr (.inr (.inr (.inl ⟨b, r, rfl, hr, rfl⟩))))))
  | call b =>
    simp only [exec, execCall] at h
    rcases one (b := b) h with ⟨hb, e⟩ | ⟨r, hr, h⟩
    · exact .inl ⟨bad1 hb, e⟩
    · obtain ⟨_, h⟩ := readReg_next h
      cases h; exact .inr (.inr (.inr (.inr (.inr (.inr (.inr (.inl ⟨b, r, rfl, hr, rfl⟩)))))))
  | ret => cases h; exact .inr (.inr (.inr (.inr (.inr (.inr (.inr (.inr (.inl ⟨rfl, rfl⟩))))))))
  | jmp b =>
    simp only [exec, execJmp] at h
    rcases one (b := b) h with ⟨hb, e⟩ | ⟨r, hr, h⟩
    · exact .inl ⟨bad1 hb, e⟩
    · obtain ⟨_, h⟩ := readReg_next h
      cases h; exact .inr (.inr (.inr (.inr (.inr (.inr (.inr (.inr (.inr (.inl ⟨b, r, rfl, hr, rfl⟩)))))))))
  | jeq b =>
    rcases branchIf_next h with ⟨hb, e⟩ | ⟨r, hr, _, h⟩
    · exact .inl ⟨bad1 hb, e⟩
    · exact .inr (.inr (.inr (.inr (.inr (.inr (.inr (.inr (.inr (.inr ⟨b, r, .inl rfl, hr,
        h.imp (·.2.2) (·.2)⟩)))))))))
  | jne b =>
    rcases branchIf_next h with ⟨hb, e⟩ | ⟨r, hr, _, h⟩
    · exact .inl ⟨bad1 hb, e⟩
    · exact .inr (.inr (.inr (.inr (.inr (.inr (.inr (.inr (.inr (.inr ⟨b, r, .inr rfl, hr,
        h.imp (·.2.2) (·.2)⟩)))))))))

end Sys2Proof.Machine
end

