-- ==== Sys2Proof/Laws/Memory.lean ====
section
/-! SUPPORT. Read after write, and that every memory operation keeps the canonical form (R38, R51). -/

namespace Sys2Proof.Machine

@[simp] theorem Memory.read_nil (a : Addr) : Memory.read [] a = 0x00 := rfl

theorem Memory.read_cons (c : Host.Cell) (m : Memory) (a : Addr) :
    Memory.read (c :: m) a = if c.1 = a.toNat then c.2 else Memory.read m a := rfl

/-- An address below every listed one reads as 0x00. -/
theorem Memory.read_of_lt (m : Memory) (a : Addr) (h : ∀ c ∈ m, a.toNat < c.1) : Memory.read m a = 0x00 := by
  induction m with
  | nil => rfl
  | cons c m ih =>
    have hc : a.toNat < c.1 := h c (by simp)
    rw [Memory.read_cons, if_neg (by omega)]
    exact ih fun d hd => h d (by simp [hd])

theorem Memory.read_entry (k : Nat) (v : Byte) (rest : Memory) (a : Addr)
    (h : ∀ c ∈ rest, k < c.1) :
    Memory.read (Memory.entry k v rest) a = if k = a.toNat then v else Memory.read rest a := by
  unfold Memory.entry
  split
  · rename_i hv
    split
    · rename_i hk
      rw [Memory.read_of_lt rest a (by simpa [hk] using h), hv]; rfl
    · rfl
  · rfl

/-- A read after a write in a canonical memory: the byte written at its address, the old byte elsewhere
(R51, R59). -/
theorem Memory.read_write (m : Memory) (hm : m.Pairwise (fun c d => c.1 < d.1)) (a b : Addr) (v : Byte) :
    Memory.read (Memory.write m a v) b = if b = a then v else Memory.read m b := by
  induction m with
  | nil =>
    rw [Memory.write, Memory.read_entry _ _ _ _ (by simp)]
    simp [BitVec.toNat_inj, eq_comm]
  | cons c m ih =>
    obtain ⟨hc, hm⟩ := List.pairwise_cons.mp hm
    rw [Memory.write]
    split
    · rename_i hlt
      rw [Memory.read_cons, ih hm, Memory.read_cons]
      by_cases e : c.1 = b.toNat
      · have : b ≠ a := by rintro rfl; omega
        simp [e, this]
      · simp [e]
    · split
      · rename_i _ heq
        rw [Memory.read_entry _ _ _ _ hc, Memory.read_cons, heq]
        by_cases e : b = a
        · simp [e]
        · have : a.toNat ≠ b.toNat := fun h => e (BitVec.toNat_inj.mp h.symm)
          simp [e, this]
      · rename_i h1 h2
        rw [Memory.read_entry]
        · simp [BitVec.toNat_inj, eq_comm]
        · intro d hd
          rcases List.mem_cons.mp hd with rfl | hd
          · omega
          · have := hc d hd; omega

theorem Memory.entry_wf (k : Nat) (hk : k < 256) (v : Byte) (rest : Memory) (hr : Memory.wf rest)
    (h : ∀ c ∈ rest, k < c.1) : Memory.wf (Memory.entry k v rest) := by
  unfold Memory.entry
  split
  · exact hr
  · rename_i hv
    refine ⟨List.pairwise_cons.mpr ⟨h, hr.1⟩, ?_⟩
    intro c hc
    rcases List.mem_cons.mp hc with rfl | hc
    · exact ⟨hk, hv⟩
    · exact hr.2 c hc

/-- Every entry of a memory after a write is the written address or was listed before. -/
theorem Memory.mem_write (m : Memory) (a : Addr) (v : Byte) (c : Host.Cell) (h : c ∈ Memory.write m a v) :
    c.1 = a.toNat ∨ c ∈ m := by
  induction m with
  | nil => unfold Memory.write Memory.entry at h; split at h <;> simp_all
  | cons d m ih =>
    unfold Memory.write Memory.entry at h
    split at h
    · rcases List.mem_cons.mp h with rfl | h
      · simp
      · rcases ih h with h | h <;> simp [h]
    · split at h
      · split at h
        · simp [h]
        · rcases List.mem_cons.mp h with rfl | h <;> simp_all
      · split at h
        · exact .inr h
        · rcases List.mem_cons.mp h with rfl | h
          · simp
          · exact .inr h

/-- A write keeps the canonical form. -/
theorem Memory.write_wf (m : Memory) (hm : Memory.wf m) (a : Addr) (v : Byte) :
    Memory.wf (Memory.write m a v) := by
  induction m with
  | nil => exact Memory.entry_wf _ a.isLt _ _ hm (by simp)
  | cons c m ih =>
    obtain ⟨hc, hp⟩ := List.pairwise_cons.mp hm.1
    have hw : Memory.wf m := ⟨hp, fun d hd => hm.2 d (by simp [hd])⟩
    rw [Memory.write]
    split
    · rename_i hlt
      refine ⟨List.pairwise_cons.mpr ⟨?_, (ih hw).1⟩, ?_⟩
      · intro d hd
        rcases Memory.mem_write m a v d hd with h | h
        · omega
        · exact hc d h
      · intro d hd
        rcases List.mem_cons.mp hd with rfl | hd
        · exact hm.2 _ (by simp)
        · exact (ih hw).2 d hd
    · split
      · exact Memory.entry_wf _ (hm.2 c (by simp)).1 _ _ hw hc
      · refine Memory.entry_wf _ a.isLt _ _ hm ?_
        intro d hd
        rcases List.mem_cons.mp hd with rfl | hd
        · omega
        · have := hc d hd; omega

/-- Reset memory is canonical. -/
theorem State.reset_mem_wf : State.reset.mem.wf := by decide

theorem State.storeByte_mem_wf (s : State) (h : s.mem.wf) (a : Addr) (v : Byte) :
    (s.storeByte a v).mem.wf := Memory.write_wf _ h a v

/-- A store changes the byte at its address and no other (R51). -/
theorem State.byteAt_storeByte (s : State) (h : s.mem.wf) (a b : Addr) (v : Byte) :
    (s.storeByte a v).byteAt b = if b = a then v else s.byteAt b :=
  Memory.read_write s.mem h.1 a b v

/-- The bytes of a fetch word keep the canonical form. -/
theorem Memory.writeBytes_wf (bs : List Byte) (m : Memory) (hm : Memory.wf m) (a : Addr) :
    Memory.wf (Memory.writeBytes m a bs) := by
  induction bs generalizing m a with
  | nil => exact hm
  | cons b bs ih => exact ih _ (Memory.write_wf m hm a b) _

theorem State.withFetchWord_mem_wf (s : State) (h : s.mem.wf) (nbits w : Nat) :
    (s.withFetchWord nbits w).mem.wf := Memory.writeBytes_wf _ _ h _

/-- The load keeps the canonical form. -/
theorem Memory.loadFrom_wf (image : List Nat) (m : Memory) (hm : Memory.wf m) (i : Nat) :
    Memory.wf (Memory.loadFrom m i image) := by
  induction image generalizing m i with
  | nil => exact hm
  | cons v vs ih => exact ih _ (Memory.write_wf m hm _ _) _

end Sys2Proof.Machine
end

