-- ==== Sys2Proof/Laws/PerInstr.lean ====
section
/-! SUPPORT. The per-instruction families of LAWS.json: each is a statement about an instruction as syntax,
with one lemma per constructor of `Instr`. -/

namespace Sys2Proof.Laws

/-- R81, R83: the encoding has the length the opcode's count field gives, and the count is the number of
operand bytes. -/
def EncodingLength.Statement (i : Instr) : Prop :=
  (encode i).length = i.length ∧ i.operands.length = i.opcode.count

theorem EncodingLength.hlt : EncodingLength.Statement .hlt := by
  simp [EncodingLength.Statement, encode, Instr.operands, Instr.length, Instr.opcode, Opcode.count_eq, Opcode.format]
theorem EncodingLength.ldi (r imm : Byte) : EncodingLength.Statement (.ldi r imm) := by
  simp [EncodingLength.Statement, encode, Instr.operands, Instr.length, Instr.opcode, Opcode.count_eq, Opcode.format]
theorem EncodingLength.prn (r : Byte) : EncodingLength.Statement (.prn r) := by
  simp [EncodingLength.Statement, encode, Instr.operands, Instr.length, Instr.opcode, Opcode.count_eq, Opcode.format]
theorem EncodingLength.mul (rA rB : Byte) : EncodingLength.Statement (.mul rA rB) := by
  simp [EncodingLength.Statement, encode, Instr.operands, Instr.length, Instr.opcode, Opcode.count_eq, Opcode.format]
theorem EncodingLength.add (rA rB : Byte) : EncodingLength.Statement (.add rA rB) := by
  simp [EncodingLength.Statement, encode, Instr.operands, Instr.length, Instr.opcode, Opcode.count_eq, Opcode.format]
theorem EncodingLength.cmp (rA rB : Byte) : EncodingLength.Statement (.cmp rA rB) := by
  simp [EncodingLength.Statement, encode, Instr.operands, Instr.length, Instr.opcode, Opcode.count_eq, Opcode.format]
theorem EncodingLength.push (r : Byte) : EncodingLength.Statement (.push r) := by
  simp [EncodingLength.Statement, encode, Instr.operands, Instr.length, Instr.opcode, Opcode.count_eq, Opcode.format]
theorem EncodingLength.pop (r : Byte) : EncodingLength.Statement (.pop r) := by
  simp [EncodingLength.Statement, encode, Instr.operands, Instr.length, Instr.opcode, Opcode.count_eq, Opcode.format]
theorem EncodingLength.call (r : Byte) : EncodingLength.Statement (.call r) := by
  simp [EncodingLength.Statement, encode, Instr.operands, Instr.length, Instr.opcode, Opcode.count_eq, Opcode.format]
theorem EncodingLength.ret : EncodingLength.Statement .ret := by
  simp [EncodingLength.Statement, encode, Instr.operands, Instr.length, Instr.opcode, Opcode.count_eq, Opcode.format]
theorem EncodingLength.jmp (r : Byte) : EncodingLength.Statement (.jmp r) := by
  simp [EncodingLength.Statement, encode, Instr.operands, Instr.length, Instr.opcode, Opcode.count_eq, Opcode.format]
theorem EncodingLength.jeq (r : Byte) : EncodingLength.Statement (.jeq r) := by
  simp [EncodingLength.Statement, encode, Instr.operands, Instr.length, Instr.opcode, Opcode.count_eq, Opcode.format]
theorem EncodingLength.jne (r : Byte) : EncodingLength.Statement (.jne r) := by
  simp [EncodingLength.Statement, encode, Instr.operands, Instr.length, Instr.opcode, Opcode.count_eq, Opcode.format]

/-- R84, R87: an instruction is made again from its opcode and its operand bytes. -/
def OpcodeAndOperands.Statement (i : Instr) : Prop :=
  i.opcode.instr (i.operands.getD 0 0) (i.operands.getD 1 0) = i

theorem OpcodeAndOperands.hlt : OpcodeAndOperands.Statement .hlt := rfl
theorem OpcodeAndOperands.ldi (r imm : Byte) : OpcodeAndOperands.Statement (.ldi r imm) := rfl
theorem OpcodeAndOperands.prn (r : Byte) : OpcodeAndOperands.Statement (.prn r) := rfl
theorem OpcodeAndOperands.mul (rA rB : Byte) : OpcodeAndOperands.Statement (.mul rA rB) := rfl
theorem OpcodeAndOperands.add (rA rB : Byte) : OpcodeAndOperands.Statement (.add rA rB) := rfl
theorem OpcodeAndOperands.cmp (rA rB : Byte) : OpcodeAndOperands.Statement (.cmp rA rB) := rfl
theorem OpcodeAndOperands.push (r : Byte) : OpcodeAndOperands.Statement (.push r) := rfl
theorem OpcodeAndOperands.pop (r : Byte) : OpcodeAndOperands.Statement (.pop r) := rfl
theorem OpcodeAndOperands.call (r : Byte) : OpcodeAndOperands.Statement (.call r) := rfl
theorem OpcodeAndOperands.ret : OpcodeAndOperands.Statement .ret := rfl
theorem OpcodeAndOperands.jmp (r : Byte) : OpcodeAndOperands.Statement (.jmp r) := rfl
theorem OpcodeAndOperands.jeq (r : Byte) : OpcodeAndOperands.Statement (.jeq r) := rfl
theorem OpcodeAndOperands.jne (r : Byte) : OpcodeAndOperands.Statement (.jne r) := rfl

end Sys2Proof.Laws
end

