-- ==== Sys2Proof/Laws/Run.lean ====
section
/-! SUPPORT. Runs: `runSteps` is the host's own run of the machine, and an induction over runs packaged once. -/

namespace Sys2Proof.Machine

theorem core_run_next (M : Host.Core) (k : Nat) (s t : M.State) (h : M.step s = .next t) :
    Host.Core.run M (k + 1) s = Host.Core.run M k t := by
  rw [Host.Core.run, h]

theorem core_run_fault (M : Host.Core) (k : Nat) (s : M.State) (f : M.Fault) (h : M.step s = .fault f) :
    Host.Core.run M (k + 1) s = .fault f := by
  rw [Host.Core.run, h]

theorem core_run_refused (M : Host.Core) (k : Nat) (s : M.State) (r : M.Refusal) (h : M.step s = .refused r) :
    Host.Core.run M (k + 1) s = .refused r := by
  rw [Host.Core.run, h]

theorem runSteps_next {s t : State} (k : Nat) (h : step s = .next t) : runSteps (k + 1) s = runSteps k t := by
  rw [runSteps, h]

theorem runSteps_fault {s : State} {f : Fault} (k : Nat) (h : step s = .fault f) :
    runSteps (k + 1) s = .fault f := by
  rw [runSteps, h]

theorem runSteps_refused {s : State} {r : Refusal} (k : Nat) (h : step s = .refused r) :
    runSteps (k + 1) s = .refused r := by
  rw [runSteps, h]

/-- `runSteps` is `Host.Core.run` of the machine. -/
theorem runSteps_eq_core_run (k : Nat) (s : State) : runSteps k s = Host.Core.run Sys2Proof.core k s := by
  induction k generalizing s with
  | zero => rfl
  | succ k ih =>
    cases h : step s with
    | next t => exact (runSteps_next k h).trans ((ih t).trans (core_run_next Sys2Proof.core k s t h).symm)
    | fault f => exact (runSteps_fault k h).trans (core_run_fault Sys2Proof.core k s f h).symm
    | refused r => exact (runSteps_refused k h).trans (core_run_refused Sys2Proof.core k s r h).symm

/-- What holds of a state and is kept by every step holds at the end of every run. -/
theorem runSteps_invariant (P : State → Prop) (hstep : ∀ s t, P s → step s = .next t → P t) (k : Nat)
    (s t : State) (hs : P s) (h : runSteps k s = .next t) : P t := by
  induction k generalizing s with
  | zero => cases h; exact hs
  | succ k ih =>
    unfold runSteps at h
    split at h
    · rename_i u hu
      exact ih u (hstep s u hs hu) h
    · cases h
    · cases h

end Sys2Proof.Machine
end

