-- ==== Sys2Proof/Laws/Step.lean ====
section
/-! SUPPORT. The operand fetch's bookkeeping and the shape of a step. -/

namespace Sys2Proof.Machine

variable (s : State) (i : Instr)

/-- The operand fetch passes 255 exactly when its last address does. -/
theorem operandFetchWraps_eq (a : Addr) {c : Nat} (hc : c ≤ 2) :
    operandFetchWraps a c = decide (255 < a.toNat + c) := by
  have ha := a.isLt
  match c, hc with
  | 0, _ => exact (decide_eq_false (by omega)).symm
  | 1, _ => rfl
  | 2, _ => simp only [operandFetchWraps, sumWraps, ← Bool.decide_or]; exact decide_eq_decide.mpr (by omega)

/-- The instruction an opcode makes has that opcode. -/
@[simp] theorem Opcode.opcode_instr (o : Opcode) (b1 b2 : Byte) : (o.instr b1 b2).opcode = o := by
  cases o <;> rfl

/-- An instruction's encoding is its opcode byte and `count` operand bytes (R80, R81). -/
theorem encode_length_sub_one : (encode i).length - 1 = i.opcode.count := by
  cases i <;> simp [encode, Instr.opcode, Instr.operands, Opcode.count_eq, Opcode.format]

/-- The operand fetch changes `wrapNoted` alone, as the statements say it. -/
theorem State.noteOperandFetch_eq : s.noteOperandFetch i = afterFetch i s := by
  rw [State.noteOperandFetch, operandFetchWraps_eq _ i.opcode.count_le, afterFetch, encode_length_sub_one]

@[simp] theorem State.noteOperandFetch_run : (s.noteOperandFetch i).run = s.run := rfl
@[simp] theorem State.noteOperandFetch_mem : (s.noteOperandFetch i).mem = s.mem := rfl
@[simp] theorem State.noteOperandFetch_pc : (s.noteOperandFetch i).pc = s.pc := rfl
@[simp] theorem State.noteOperandFetch_out : (s.noteOperandFetch i).out = s.out := rfl
@[simp] theorem State.noteOperandFetch_fl : (s.noteOperandFetch i).fl = s.fl := rfl
@[simp] theorem State.noteOperandFetch_flWritten : (s.noteOperandFetch i).flWritten = s.flWritten := rfl
@[simp] theorem State.sp_noteOperandFetch : (s.noteOperandFetch i).sp = s.sp := rfl
@[simp] theorem State.reg_noteOperandFetch (q : Fin 8) : (s.noteOperandFetch i).reg q = s.reg q := rfl
@[simp] theorem State.regWritten_noteOperandFetch (q : Fin 8) :
    (s.noteOperandFetch i).regWritten q = s.regWritten q := rfl
@[simp] theorem State.byteAt_noteOperandFetch (a : Addr) : (s.noteOperandFetch i).byteAt a = s.byteAt a := rfl

/-- A note stays over the operand fetch (R31). -/
theorem State.noteOperandFetch_wrapNoted (h : s.wrapNoted = true) : (s.noteOperandFetch i).wrapNoted = true := by
  simp [State.noteOperandFetch, h]

/-- An ill-formed instruction's operand fetch stores nothing (R119). -/
theorem State.noteOperandFetch_ill_formed (h : i.wellFormed = false) : s.noteOperandFetch i = s := by
  simp [State.noteOperandFetch, h]

/-- A note is seen in the flag. -/
theorem State.wrapped_of_noted (h : s.wrapNoted = true) : s.wrapped = true := by
  simp [State.wrapped, h]

/-- In Running the flag is what is noted. -/
theorem State.wrapped_running (h : s.run = .running) : s.wrapped = s.wrapNoted := by
  simp [State.wrapped, State.errorFetchWraps, h]

/-- In Halted the flag is what is noted. -/
theorem State.wrapped_halted (h : s.run = .halted) : s.wrapped = s.wrapNoted := by
  simp [State.wrapped, State.errorFetchWraps, h]

@[simp] theorem State.wrapped_enterError_unknownOpcode : (s.enterError .unknownOpcode).wrapped = s.wrapNoted := by
  simp [State.wrapped, State.errorFetchWraps, State.enterError]

/-- After a step that ends in BadRegister the flag tells of its operand fetch too (R115). -/
@[simp] theorem State.wrapped_enterError_badRegister :
    (s.enterError .badRegister).wrapped =
      (s.wrapNoted || operandFetchWraps s.pc (countField (s.byteAt s.pc))) := rfl

/-- A Running state steps by the run loop (R110). -/
theorem step_running (h : s.run = .running) : step s = fetchAndRun s := by
  simp [step, h]

/-- A step answers a next state only in Running (R110, R117). -/
theorem run_of_step_next {s t : State} (h : step s = .next t) : s.run = .running ∧ fetchAndRun s = .next t := by
  unfold step at h
  split at h
  · exact ⟨‹_›, h⟩
  · cases h
  · cases h

/-- Everything a step can do: a byte of no opcode enters Error, any other runs its instruction after the
operand fetch (R110, R112, R115). -/
theorem fetchAndRun_cases :
    (Opcode.ofByte? (s.byteAt s.pc) = none ∧ fetchAndRun s = .next (s.enterError .unknownOpcode)) ∨
      ∃ o i, Opcode.ofByte? (s.byteAt s.pc) = some o ∧
        i = o.instr (s.byteAt (addrAdd s.pc 1)) (s.byteAt (addrAdd s.pc 2)) ∧
        fetchAndRun s = exec i (s.noteOperandFetch i) := by
  unfold fetchAndRun State.fetchOpcode
  split
  · exact .inl ⟨‹_›, rfl⟩
  · exact .inr ⟨_, _, ‹_›, rfl, rfl⟩

end Sys2Proof.Machine
end

