-- ==== Sys2Proof/Machine/HostText.lean ====
section
/-! DEFINITION. The two texts the spec describes beside the machine: the program image file (R94) and the
assembly syntax of its examples (R92, D13). Neither has an effect on any step. Texts are lists of
characters. Details the spec leaves open are in log 12. -/

namespace Sys2Proof.Machine

/-- Blanks, tabs and carriage returns. -/
def isBlank (c : Char) : Bool := c = ' ' || c = '\t' || c = '\r'

/-- A text without leading and trailing whitespace. -/
def trim (t : List Char) : List Char :=
  ((t.dropWhile isBlank).reverse.dropWhile isBlank).reverse

/-- The pieces of a text between the occurrences of a character. -/
def splitAtChar (c : Char) (t : List Char) : List (List Char) :=
  t.foldr (fun d acc =>
    if d = c then [] :: acc
    else match acc with
      | [] => [[d]]
      | w :: ws => (d :: w) :: ws) [[]]

/-- The value of a digit, when it is one of the base. -/
def digitValue (base : Nat) (c : Char) : Option Nat :=
  let n := c.toNat
  let v :=
    if 48 ≤ n ∧ n ≤ 57 then n - 48
    else if 65 ≤ n ∧ n ≤ 70 then n - 55
    else if 97 ≤ n ∧ n ≤ 102 then n - 87
    else base
  if v < base then some v else none

/-- The number a sequence of digits stands for, read after `acc`. -/
def numberFrom (base acc : Nat) : List Char → Option Nat
  | [] => some acc
  | c :: rest =>
    match digitValue base c with
    | none => none
    | some v => numberFrom base (acc * base + v) rest

/-- A number of at least one digit. -/
def number (base : Nat) (t : List Char) : Option Nat :=
  if t.isEmpty then none else numberFrom base 0 t

/-! ### The program image (R94) -/

/-- One line of the image file: comment and surrounding whitespace stripped; `some none` for a blank line,
`some (some v)` for an 8-character binary literal, `none` for anything else. -/
def imageLine (line : List Char) : Option (Option Nat) :=
  let t := trim (line.takeWhile (fun c => c ≠ '#'))
  if t.isEmpty then some none
  else if t.length = 8 then (number 2 t).map some
  else none

/-- The values of an image file's lines, in file order. -/
def imageLines : List (List Char) → Option (List Nat)
  | [] => some []
  | l :: ls =>
    match imageLine l, imageLines ls with
    | some none, some vs => some vs
    | some (some v), some vs => some (v :: vs)
    | _, _ => none

/-- The image a text file stands for (R94). -/
def imageOfText (t : List Char) : Option (List Nat) := imageLines (splitAtChar '\n' t)

/-! ### Assembly (R92) -/

/-- The mnemonics of R84. -/
def mnemonicText : Opcode → List Char
  | .hlt => ['H', 'L', 'T']
  | .ldi => ['L', 'D', 'I']
  | .prn => ['P', 'R', 'N']
  | .mul => ['M', 'U', 'L']
  | .add => ['A', 'D', 'D']
  | .cmp => ['C', 'M', 'P']
  | .push => ['P', 'U', 'S', 'H']
  | .pop => ['P', 'O', 'P']
  | .call => ['C', 'A', 'L', 'L']
  | .ret => ['R', 'E', 'T']
  | .jmp => ['J', 'M', 'P']
  | .jeq => ['J', 'E', 'Q']
  | .jne => ['J', 'N', 'E']

/-- The text of an operand list: separated by commas. -/
def operandTexts : List (List Char) → List Char
  | [] => []
  | [t] => ' ' :: t
  | t :: u :: ts => ' ' :: t ++ ',' :: (operandTexts (u :: ts)).drop 1

/-- A register's text, `R0` to `R7` for a legal index. -/
def regText (b : Byte) : List Char := 'R' :: Nat.toDigits 10 b.toNat

/-- An instruction in the assembly syntax, its operands in the order of the source table. -/
def asmText (i : Instr) : List Char :=
  mnemonicText i.opcode ++ operandTexts (match i with
    | .hlt => []
    | .ldi r imm => [regText r, Nat.toDigits 10 imm.toNat]
    | .prn r => [regText r]
    | .mul rA rB => [regText rA, regText rB]
    | .add rA rB => [regText rA, regText rB]
    | .cmp rA rB => [regText rA, regText rB]
    | .push r => [regText r]
    | .pop r => [regText r]
    | .call r => [regText r]
    | .ret => []
    | .jmp r => [regText r]
    | .jeq r => [regText r]
    | .jne r => [regText r])

/-- A register operand: `R0` to `R7`, and `SP` for `R7`. -/
def parseReg (t : List Char) : Option Byte :=
  match t with
  | ['S', 'P'] => some 7
  | ['R', d] => (digitValue 8 d).map (BitVec.ofNat 8)
  | _ => none

/-- An immediate: decimal, hex with `0x` or binary with `0b`, from 0 to 255. -/
def parseImm (t : List Char) : Option Byte :=
  let v := match t with
    | '0' :: 'x' :: ds => number 16 ds
    | '0' :: 'b' :: ds => number 2 ds
    | ds => number 10 ds
  match v with
  | some n => if n < 256 then some (BitVec.ofNat 8 n) else none
  | none => none

/-- What an assembly line asks for: an instruction, or an LDI whose immediate is a label's address. -/
inductive AsmOp where
  | plain (i : Instr)
  | ldiLabel (r : Byte) (name : List Char)
deriving DecidableEq, Repr

/-- One line: the label that marks it, if any, and its instruction. -/
structure AsmLine where
  label : Option (List Char)
  op : AsmOp
deriving DecidableEq, Repr

/-- The opcode a mnemonic names. -/
def parseMnemonic (t : List Char) : Option Opcode := Opcode.all.find? (fun o => mnemonicText o = t)

/-- An instruction from its opcode and the texts of its operands (R83, R92). -/
def parseOperands (o : Opcode) (ts : List (List Char)) : Option AsmOp :=
  match o.format, ts with
  | .n, [] => some (.plain (o.instr 0 0))
  | .r, [t] => (parseReg t).map fun r => .plain (o.instr r 0)
  | .rr, [t, u] =>
    match parseReg t, parseReg u with
    | some rA, some rB => some (.plain (o.instr rA rB))
    | _, _ => none
  | .ri, [t, u] =>
    match parseReg t, parseImm u with
    | some r, some imm => some (.plain (o.instr r imm))
    | some r, none => some (.ldiLabel r u)
    | none, _ => none
  | _, _ => none

/-- A mnemonic followed by its operands, separated by commas. -/
def parseOp (t : List Char) : Option AsmOp :=
  let body := trim t
  let rest := trim (body.dropWhile (fun c => !isBlank c))
  match parseMnemonic (body.takeWhile (fun c => !isBlank c)) with
  | none => none
  | some o => parseOperands o (if rest.isEmpty then [] else (splitAtChar ',' rest).map trim)

/-- One line of assembly: `LABEL: MNEMONIC operands`, the label optional. -/
def parseAsmLine (t : List Char) : Option AsmLine :=
  match splitAtChar ':' t with
  | [body] => (parseOp body).map fun op => ⟨none, op⟩
  | [name, body] => (parseOp body).map fun op => ⟨some (trim name), op⟩
  | _ => none

/-- The length in bytes of a line's instruction. -/
def AsmOp.length : AsmOp → Nat
  | .plain i => i.length
  | .ldiLabel r _ => (Instr.ldi r 0).length

/-- "A label stands for the address of the instruction it marks" (R92): its address, when the lines start at
address `pos`. -/
def labelAddr (name : List Char) (pos : Nat) : List AsmLine → Option Nat
  | [] => none
  | l :: ls => if l.label = some name then some pos else labelAddr name (pos + l.op.length) ls

/-- The bytes of the lines `ls` of the program `all`. -/
def assembleLines (all : List AsmLine) : List AsmLine → Option (List Byte)
  | [] => some []
  | l :: ls =>
    match l.op, assembleLines all ls with
    | .plain i, some bytes => some (encode i ++ bytes)
    | .ldiLabel r name, some bytes =>
      match labelAddr name 0 all with
      | some a => if a < 256 then some (encode (.ldi r (BitVec.ofNat 8 a)) ++ bytes) else none
      | none => none
    | _, none => none

/-- The image bytes of an assembly program placed at address 0 (R92). -/
def assemble (p : List AsmLine) : Option (List Byte) := assembleLines p p

end Sys2Proof.Machine
end

