-- ==== Sys2Proof/Tests/Slice0.lean ====
section
/-! SUPPORT. The model's own tests. Decode tests: words written out bit by bit from R84's binary column. Step tests:
vectors of spec/95_test_vectors.md, named in each comment, at most two an instruction. Then the smoke test of
WellFormed, the host interfaces, and, for every statement with hypotheses, a witness that meets them. -/

namespace Sys2Proof.Machine.Tests

/-- Reset, with `pc` at `a` and bytes from `a` on. -/
def at_ (a : Addr) (bytes : List Byte) : State :=
  { State.reset with pc := a, mem := Memory.writeBytes [] a bytes }

/-- The same with REG_INIT and FL_INIT "unwritten", as the vectors' start states have it. -/
def blankAt (a : Addr) (bytes : List Byte) : State :=
  { State.resetWith .unwritten .unwritten with pc := a, mem := Memory.writeBytes [] a bytes }

/-- What the tests look at in the next state of a step. -/
def see (f : State → α) (s : State) : Option α := (nextOf (step s)).map f

/-! ### Decoding: each constructor's word, written out from R84 -/

theorem test_decode_hlt : decode [0b00000001] = .ok .hlt [] := by decide
theorem test_decode_ldi : decode [0b10000010, 0b00000011, 0b11111111] = .ok (.ldi 3 255) [] := by decide
theorem test_decode_prn : decode [0b01000111, 0b00000101] = .ok (.prn 5) [] := by decide
theorem test_decode_mul : decode [0b10100010, 0b00000001, 0b00000010] = .ok (.mul 1 2) [] := by decide
theorem test_decode_add : decode [0b10100000, 0b00000110, 0b00000111] = .ok (.add 6 7) [] := by decide
theorem test_decode_cmp : decode [0b10100111, 0b00000100, 0b00000000] = .ok (.cmp 4 0) [] := by decide
theorem test_decode_push : decode [0b01000101, 0b00000111] = .ok (.push 7) [] := by decide
theorem test_decode_pop : decode [0b01000110, 0b00000100] = .ok (.pop 4) [] := by decide
theorem test_decode_call : decode [0b01010000, 0b00000001] = .ok (.call 1) [] := by decide
theorem test_decode_ret : decode [0b00010001] = .ok .ret [] := by decide
theorem test_decode_jmp : decode [0b01010100, 0b00000010] = .ok (.jmp 2) [] := by decide
theorem test_decode_jeq : decode [0b01010101, 0b00000011] = .ok (.jeq 3) [] := by decide
theorem test_decode_jne : decode [0b01010110, 0b00000011] = .ok (.jne 3) [] := by decide

/-- 0xC1 has HLT's bits 5:0 and is not HLT (R87). -/
theorem test_decode_same_low_bits : decode [0xC1] = .unknownOpcode 0xC1 := by decide
/-- 0x00 is no no-op (R90). -/
theorem test_decode_zero : decode [0x00] = .unknownOpcode 0x00 := by decide
theorem test_decode_truncated : decode [0x82, 0x00] = .truncated := by decide

/-- R88: 243 of the 256 byte values are no opcode; R89: every byte with count 3 is among them. -/
theorem test_illegal_bytes_243 :
    ((List.range 256).filter fun n => Opcode.ofByte? (BitVec.ofNat 8 n) = none).length = 243 := by
  set_option maxRecDepth 20000 in decide

/-! ### The table's words -/

theorem test_table_word_ldi : decodeTableWord 24 0x080082 = some (.ldi 0 8) := by decide
theorem test_table_word_short : decodeTableWord 8 0xFF01 = some .hlt := by decide
theorem test_table_word_illegal : decodeTableWord 8 0x00 = none := by decide

/-! ### WellFormed refuses an ill-formed term at each check -/

theorem test_ill_formed_ldi : (Instr.ldi 8 0).wellFormed = false := by decide
theorem test_ill_formed_prn : (Instr.prn 255).wellFormed = false := by decide
theorem test_ill_formed_mul_second : (Instr.mul 0 9).wellFormed = false := by decide
theorem test_ill_formed_mul_first : (Instr.mul 9 0).wellFormed = false := by decide
theorem test_ill_formed_add : (Instr.add 8 8).wellFormed = false := by decide
theorem test_ill_formed_cmp : (Instr.cmp 0 8).wellFormed = false := by decide
theorem test_ill_formed_push : (Instr.push 8).wellFormed = false := by decide
theorem test_ill_formed_pop : (Instr.pop 128).wellFormed = false := by decide
theorem test_ill_formed_call : (Instr.call 8).wellFormed = false := by decide
theorem test_ill_formed_jmp : (Instr.jmp 10).wellFormed = false := by decide
theorem test_ill_formed_jeq : (Instr.jeq 9).wellFormed = false := by decide
theorem test_ill_formed_jne : (Instr.jne 8).wellFormed = false := by decide
/-- LDI's immediate is not checked (R116). -/
theorem test_well_formed_ldi : (Instr.ldi 7 255).wellFormed = true := by decide

/-! ### One step of each instruction -/

/-- V-HLT-1 -/
theorem test_hlt : see (fun t => (t.run, t.pc, t.wrapped)) (blankAt 0x05 [0x01]) = some (.halted, 0x06, false) := by decide
/-- V-HLT-2 -/
theorem test_hlt_wraps : see (fun t => (t.run, t.pc, t.wrapped)) (blankAt 0xFF [0x01]) = some (.halted, 0x00, true) := by decide
/-- V-LDI-2 -/
theorem test_ldi_sp : see (fun t => (t.pc, t.sp)) (blankAt 0x10 [0x82, 0x07, 0x00]) = some (0x13, 0x00) := by decide
/-- V-LDI-5 -/
theorem test_ldi_wraps : see (fun t => (t.pc, t.reg 2, t.regView 3, t.wrapped)) (blankAt 0xFE [0x82, 0x02, 0x2A]) =
    some (0x01, 0x2A, none, true) := by decide
/-- V-PRN-2 -/
theorem test_prn_sp : see (fun t => (t.pc, t.out)) (blankAt 0x10 [0x47, 0x07]) = some (0x12, [244]) := by decide
/-- V-PRN-3 -/
theorem test_prn_unwritten : faultOf (step (blankAt 0x10 [0x47, 0x05])) = some (.unwrittenRead (.reg 5)) := by decide
/-- V-MUL-4 -/
theorem test_mul_square : see (fun t => (t.pc, t.reg 2)) ((blankAt 0x10 [0xA2, 0x02, 0x02]).writeReg 2 0x0F) =
    some (0x13, 0xE1) := by decide
/-- V-MUL-5 -/
theorem test_mul_keeps_flags : see (fun t => (t.reg 0, t.reg 1, t.fl))
    ((((blankAt 0x10 [0xA2, 0x00, 0x01]).writeReg 0 0x0F).writeReg 1 0x11).writeFl 0x04) = some (0xFF, 0x11, 0x04) := by decide
/-- V-ADD-1 -/
theorem test_add_wraps : see (fun t => (t.pc, t.reg 0, t.reg 1))
    (((blankAt 0x10 [0xA0, 0x00, 0x01]).writeReg 0 0xC8).writeReg 1 0x64) = some (0x13, 0x2C, 0x64) := by decide
/-- V-ADD-6 -/
theorem test_add_unwritten : faultOf (step ((blankAt 0x10 [0xA0, 0x00, 0x01]).writeReg 0 0x01)) =
    some (.unwrittenRead (.reg 1)) := by decide
/-- V-CMP-4 -/
theorem test_cmp_unsigned : see (fun t => (t.pc, t.flView))
    (((blankAt 0x10 [0xA7, 0x00, 0x01]).writeReg 0 0x80).writeReg 1 0x7F) = some (0x13, some 0x02) := by decide
/-- V-CMP-3 -/
theorem test_cmp_overwrites : see (fun t => t.fl)
    ((((blankAt 0x10 [0xA7, 0x00, 0x02]).writeReg 0 0x03).writeReg 2 0x05).writeFl 0x01) = some 0x04 := by decide
/-- V-PUSH-3 -/
theorem test_push_sp : see (fun t => (t.pc, t.sp, t.byteAt 0xF3)) (blankAt 0x10 [0x45, 0x07]) = some (0x12, 0xF3, 0xF3) := by decide
/-- V-PUSH-5 -/
theorem test_push_own_operand : see (fun t => (t.pc, t.sp, t.byteAt 0x11, t.byteAt 0x10))
    (((blankAt 0x10 [0x45, 0x00]).writeReg 0 0x33).writeReg 7 0x12) = some (0x12, 0x11, 0x33, 0x45) := by decide
/-- V-POP-2 -/
theorem test_pop_wraps : see (fun t => (t.pc, t.reg 2, t.sp, t.byteAt 0xFF, t.wrapped))
    (((blankAt 0x10 [0x46, 0x02]).writeReg 7 0xFF).storeByte 0xFF 0x09) = some (0x12, 0x09, 0x00, 0x09, false) := by decide
/-- V-POP-3 -/
theorem test_pop_sp : see (fun t => (t.pc, t.sp))
    (((blankAt 0x10 [0x46, 0x07]).writeReg 7 0xF3).storeByte 0xF3 0x10) = some (0x12, 0x11) := by decide
/-- V-CALL-2 -/
theorem test_call_sp : see (fun t => (t.pc, t.sp, t.byteAt 0xF3)) (blankAt 0x06 [0x50, 0x07]) = some (0xF3, 0xF3, 0x08) := by decide
/-- V-CALL-3 -/
theorem test_call_wraps : see (fun t => (t.pc, t.sp, t.byteAt 0xF3, t.wrapped))
    (((blankAt 0xFE [0x50, 0x01]).writeReg 1 0x20).storeByte 0xF3 0x77) = some (0x20, 0xF3, 0x00, true) := by decide
/-- V-RET-1 -/
theorem test_ret : see (fun t => (t.pc, t.sp)) (((blankAt 0x0E [0x11]).writeReg 7 0xF3).storeByte 0xF3 0x08) =
    some (0x08, 0xF4) := by decide
/-- V-RET-3 -/
theorem test_ret_empty : see (fun t => (t.pc, t.sp)) (blankAt 0x0E [0x11]) = some (0x00, 0xF5) := by decide
/-- V-JMP-1 -/
theorem test_jmp : see (fun t => (t.pc, t.wrapped)) ((blankAt 0x10 [0x54, 0x01]).writeReg 1 0x0F) = some (0x0F, false) := by decide
/-- V-JMP-3 -/
theorem test_jmp_bad_register : see (fun t => (t.pc, t.run)) (blankAt 0x10 [0x54, 0x0A]) =
    some (0x10, .error 0x10 .badRegister) := by decide
/-- V-JEQ-1 -/
theorem test_jeq_taken : see (fun t => t.pc) (((blankAt 0x14 [0x55, 0x03]).writeReg 3 0x0C).writeFl 0x01) = some 0x0C := by decide
/-- V-JEQ-5 -/
theorem test_jeq_not_taken_unwritten : see (fun t => t.pc) ((blankAt 0x14 [0x55, 0x03]).writeFl 0x04) = some 0x16 := by decide
/-- V-JNE-2 -/
theorem test_jne_taken : see (fun t => t.pc) (((blankAt 0x14 [0x56, 0x03]).writeReg 3 0x0C).writeFl 0x02) = some 0x0C := by decide
/-- V-JNE-4 -/
theorem test_jne_fall_through_wraps : see (fun t => (t.pc, t.wrapped))
    (((blankAt 0xFE [0x56, 0x03]).writeReg 3 0x0C).writeFl 0x01) = some (0x00, true) := by decide
/-- V-LOOP-2 -/
theorem test_unknown_opcode : see id (blankAt 0x20 [0xC1]) =
    some { blankAt 0x20 [0xC1] with run := .error 0x20 .unknownOpcode } := by decide

/-! ### The host's interfaces -/

/-- R214: the load of a three-byte image. -/
theorem test_load : (boot [0x82, 0, 8]).map (fun s => (s.mem, s.pc)) = some ([(0, 0x82), (2, 0x08)], 0x00) := by decide
/-- R214, D11: a value that is no byte is not admitted. -/
theorem test_load_refused : (boot [256]).isNone = true := by decide
/-- R217: "the byte 72 prints as `72` followed by a newline". -/
theorem test_printed_line : printedLine 72 = ['7', '2', '\n'] := by decide
/-- R202, R203. -/
theorem test_cause_codes : (ErrCause.unknownOpcode.code, ErrCause.badRegister.code) = (1, 2) := by decide
/-- R219: three bytes from `pc` on, wrapping, and an unwritten register shown as unwritten. -/
theorem test_trace_record : (fun r => (r.b0, r.b2, r.x[7], r.x[0])) (traceRecord (blankAt 0xFF [0x82, 0x01, 0x09])) =
    ((0x82 : Byte), (0x09 : Byte), some (0xF4 : Byte), none) := by decide
/-- R94: the spec's literal, a comment, blank lines and surrounding whitespace. -/
theorem test_image_text : imageOfText ("10000010 # LDI\n\n  00001000\n#\n".toList) = some [0x82, 8] := by decide
theorem test_image_text_refused : imageOfText ("1000001\n".toList) = none := by decide
/-- P2's subroutine call in assembly, with its label (R92, 95_test_vectors.md P2). -/
theorem test_assemble_label :
    assemble [⟨none, .ldiLabel 1 ['S']⟩, ⟨none, .plain (.call 1)⟩, ⟨some ['S'], .plain .ret⟩] =
      some [0x82, 1, 5, 0x50, 1, 0x11] := by decide
theorem test_parse_asm : parseAsmLine ("L: LDI SP,0x10".toList) = some ⟨some ['L'], .plain (.ldi 7 16)⟩ := by decide
theorem test_asm_text : asmText (.mul 0 1) = ['M', 'U', 'L', ' ', 'R', '0', ',', 'R', '1'] := by decide

/-! ### Witnesses: each statement's hypotheses are met -/

/-- Register bytes at both ends of their range. -/
theorem witness_names_ends : Names 0 0 ∧ Names 7 7 ∧ ¬ Names 8 7 := by decide

theorem witness_DecodedBytesAreTheEncoding : decode [0x82, 7, 255, 1] = .ok (.ldi 7 255) [1] := by decide

theorem witness_StepRunsTheDecodedInstruction :
    let s := at_ 0xFE [0x82, 2, 0x2A]
    s.run = .running ∧ decode [s.byteAt s.pc, s.byteAt (s.pc + 1), s.byteAt (s.pc + 2)] = .ok (.ldi 2 0x2A) [] := by decide

theorem witness_EachEncodingRunsAsItsInstruction :
    (at_ 0xFE [0x82, 2, 0x2A]).run = .running ∧ (at_ 0xFE [0x82, 2, 0x2A]).FetchesBytes [0x82, 2, 0x2A] ∧
    (at_ 0xFF [0x47, 7]).FetchesBytes [0x47, 7] ∧ (at_ 0xFF [0x11]).FetchesBytes [0x11] := by decide

theorem witness_FetchWordRunsNext :
    (at_ 0xFF [0x11]).mem.wf ∧ decodeTableWord 24 0x0107A2 = some (.mul 7 1) := by decide

theorem witness_UnknownOpcodeEntersError :
    (at_ 0x20 [0x00]).run = .running ∧ (at_ 0x20 [0x00]).byteAt 0x20 = 0x00 ∧ (at_ 0x20 [0x01]).byteAt 0x20 = 0x01 := by decide

theorem witness_BadRegisterExactlyWhenIllFormed_ill_formed : (Instr.cmp 7 8).wellFormed = false := by decide
theorem witness_BadRegisterExactlyWhenIllFormed_well_formed :
    (Instr.ldi 7 255).wellFormed = true ∧ ∃ t, exec (.ldi 7 255) State.reset = .next t := ⟨by decide, _, rfl⟩

theorem witness_EndedRunHasNoStep :
    ({ State.reset with run := .halted } : State).run ≠ .running ∧
      ({ State.reset with run := .error 0 .badRegister } : State).run ≠ .running := by decide

theorem witness_RunningStepIsNeverRefused :
    step { State.reset with run := .halted } = .refused .runEnded := rfl

theorem witness_RunningStepCompletes : State.reset.run = .running ∧ State.reset.AllWritten := by decide

theorem witness_FaultNamesSomethingUnwritten :
    faultOf (step (blankAt 0 [0x47, 6])) = some (.unwrittenRead (.reg 6)) ∧
      faultOf (step (blankAt 0 [0x55, 0])) = some (.unwrittenRead .fl) := by decide

theorem witness_LdiLoadsTheImmediate : Names 0 0 ∧ Names 7 7 := by decide

theorem witness_PrnAppendsTheRegister :
    (Names 7 7 ∧ State.reset.regWritten 7 = true) ∧ Names 6 6 ∧ (blankAt 0 []).regWritten 6 = false := by decide

theorem witness_MulAndAddWriteModulo256 :
    Names 0 0 ∧ Names 7 7 ∧ State.reset.regWritten 0 = true ∧ State.reset.regWritten 7 = true := by decide

theorem witness_CmpWritesTheFlags :
    Names 0 0 ∧ Names 7 7 ∧ State.reset.regWritten 0 = true ∧ State.reset.regWritten 7 = true ∧
    (State.reset.reg 7).toNat = (State.reset.reg 7).toNat ∧ (State.reset.reg 7).toNat > (State.reset.reg 0).toNat ∧
    (State.reset.reg 0).toNat < (State.reset.reg 7).toNat := by decide

theorem witness_AluIsUnsignedModulo256 :
    Names 0 0 ∧ Names 7 7 ∧ State.reset.regWritten 0 = true ∧ State.reset.regWritten 7 = true := by decide

theorem witness_AluFaultsOnUnwrittenOperand :
    Names 7 7 ∧ Names 0 0 ∧ (blankAt 0 []).regWritten 7 = true ∧ (blankAt 0 []).regWritten 0 = false := by decide

theorem witness_PushStoresBelowTheStackPointer :
    State.reset.mem.wf ∧ (Names 7 7 ∧ State.reset.regWritten 7 = true) ∧ (blankAt 0 [1]).mem.wf ∧ Names 6 6 ∧
      (blankAt 0 [1]).regWritten 6 = false := by decide

theorem witness_PopLoadsTheTopOfTheStack : Names 0 0 ∧ (0 : Fin 8) ≠ 7 ∧ Names 7 7 := by decide

theorem witness_CallPushesTheReturnAddress :
    State.reset.mem.wf ∧ (Names 7 7 ∧ State.reset.regWritten 7 = true) ∧ (blankAt 0 [1]).mem.wf ∧ Names 6 6 ∧
      (blankAt 0 [1]).regWritten 6 = false := by decide

theorem witness_JmpJumpsToTheRegister :
    (Names 7 7 ∧ State.reset.regWritten 7 = true) ∧ Names 0 0 ∧ (blankAt 0 []).regWritten 0 = false := by decide

theorem witness_BranchesFollowTheEqualFlag :
    (Names 7 7 ∧ (State.reset.writeFl 0x01).flWritten = true ∧ (State.reset.writeFl 0x01).fl.getLsbD 0 = true ∧
      (State.reset.writeFl 0x01).regWritten 7 = true) ∧
    (State.reset.writeFl 0x04).flWritten = true ∧ (State.reset.writeFl 0x04).fl.getLsbD 0 = false ∧
      (State.reset.writeFl 0x04).regWritten 7 = true := by decide

theorem witness_BranchesFaultOnUnwritten :
    Names 0 0 ∧ (blankAt 0 []).flWritten = false ∧ ((blankAt 0 []).writeFl 0x01).flWritten = true ∧
      ((blankAt 0 []).writeFl 0x01).regWritten 0 = false ∧ ((blankAt 0 []).writeFl 0x01).fl.getLsbD 0 = true ∧
      ((blankAt 0 []).writeFl 0x02).fl.getLsbD 0 = false := by decide

theorem witness_OnlyCmpWritesFlagsOnlyBranchesReadThem_writes :
    (∀ bA bB, Instr.hlt ≠ .cmp bA bB) ∧ ∃ t, exec .hlt State.reset = .next t := ⟨by simp, _, rfl⟩
theorem witness_OnlyCmpWritesFlagsOnlyBranchesReadThem_overwrites : (Instr.cmp 0 7).wellFormed = true := by decide
theorem witness_OnlyCmpWritesFlagsOnlyBranchesReadThem_reads :
    (∀ b, Instr.ret ≠ .jeq b ∧ Instr.ret ≠ .jne b) ∧ (0xFE : Byte).getLsbD 0 = State.reset.fl.getLsbD 0 :=
  ⟨by simp, by decide⟩

theorem witness_OnlyStackInstructionsReachMemory :
    State.reset.mem.wf ∧ (nextOf (exec (.push 7) State.reset)).map (fun t => decide (t.byteAt 0xF3 ≠ State.reset.byteAt 0xF3)) =
      some true ∧ Memory.read [(0, 1)] State.reset.sp = State.reset.mem.read State.reset.sp := by decide
theorem witness_OnlyStackInstructionsReachMemory_reads : (∀ b, Instr.hlt ≠ .pop b) ∧ Instr.hlt ≠ .ret := ⟨by simp, by simp⟩

theorem witness_OnlyPrnOutputs : ∃ t, step (at_ 0xFF [0x47, 7]) = .next t := ⟨_, rfl⟩

theorem witness_RunStateTransitions :
    (∃ t, step (at_ 0xFF [0x01]) = .next t) ∧ (∃ t, step (at_ 0 [0x00]) = .next t) ∧
      ∃ t, step (at_ 0 [0xA7, 7, 8]) = .next t := ⟨⟨_, rfl⟩, ⟨_, rfl⟩, _, rfl⟩

/-- Both causes, and a BadRegister whose operand fetch wraps: nothing stored changes but the run state. -/
theorem witness_ErrorsArePrecise :
    see (fun t => t.run) (at_ 0xFF [0x00]) = some (.error 0xFF .unknownOpcode) ∧
    see (fun t => (t.run, t.wrapped)) (at_ 0xFD [0xA7, 0, 8]) = some (.error 0xFD .badRegister, false) ∧
    see (fun t => (t.run, t.wrapped)) (at_ 0xFE [0xA7, 0, 8]) =
      some (.error 0xFE .badRegister, true) ∧
    see id (at_ 0xFE [0xA7, 0, 8]) = some { at_ 0xFE [0xA7, 0, 8] with run := .error 0xFE .badRegister } := by decide

/-- A set flag, each kind of sum at 255 and past it, and an illegal byte. -/
theorem witness_WrappedIsSetExactlyByASumPast255 :
    see (fun t => t.wrapped) (at_ 0xFC [0x82, 0, 1]) = some false ∧ see (fun t => t.wrapped) (at_ 0xFD [0x82, 0, 1]) = some true ∧
    see (fun t => t.wrapped) (at_ 0xFE [0x54, 0]) = some false ∧ see (fun t => t.wrapped) (at_ 0xFF [0x54, 0]) = some true ∧
    see (fun t => t.wrapped) (at_ 0xFE [0x55, 0]) = some true ∧ see (fun t => t.wrapped) (at_ 0xFF [0x11]) = some false ∧
    see (fun t => t.wrapped) (at_ 0xFF [0x54, 8]) = some true ∧ see (fun t => t.wrapped) (at_ 0xFF [0x00]) = some false := by
  decide

theorem witness_RunsOnlyAccumulate : ∃ t, runSteps 1 (at_ 0xFF [0x47, 7]) = .next t := ⟨_, rfl⟩

theorem witness_StepKeepsLegality : (at_ 0 [0x01]).Inv ∧ ∃ t, step (at_ 0 [0x01]) = .next t :=
  ⟨⟨by decide, by decide, by decide, trivial⟩, _, rfl⟩

/-- From reset with nothing loaded, the first step meets 0x00 and the run has ended (R90). -/
theorem witness_LegalRunsNeverFault : (at_ 0 [0x01]).Inv ∧
    (nextOf (runSteps 1 State.reset)).map (fun t => t.run) = some (.error 0x00 .unknownOpcode) ∧
      runSteps 2 State.reset = .refused .runEnded :=
  ⟨witness_StepKeepsLegality.1, by decide, rfl⟩

theorem witness_CanonicalMemoriesThatReadAlikeAreEqual : Memory.wf [(0, 1), (255, 2)] ∧ ¬ Memory.wf [(0, 0)] := by decide

theorem witness_ResetPutsEveryPieceOfState :
    Config.regInit = .value (Vector.replicate 7 0) ∧ Config.flInit = .value 0 ∧
      (State.resetWith .unwritten .unwritten).regWritten 0 = false := by decide

theorem witness_LoadPlacesTheImage :
    imageOk (List.replicate 256 255) ∧ ¬ imageOk (List.replicate 257 0) ∧ ¬ imageOk [256] := by
  refine ⟨⟨by rw [List.length_replicate], fun v h => ?_⟩, fun h => ?_, by decide⟩
  · rw [(List.mem_replicate.mp h).2]; decide
  · have := h.1; rw [List.length_replicate] at this; omega

theorem witness_FirstFetchIsTheFirstImageByte : ∃ s, boot (255 :: []) = some s := ⟨_, rfl⟩

theorem witness_TracingHasNoEffect : ∃ t, runSteps 1 (at_ 0 [0x01]) = .next t := ⟨_, rfl⟩

theorem witness_LdiThenPrnOutputsTheImmediate : (7 : Byte).toNat < 8 ∧ (0 : Byte).toNat < 8 := by decide

theorem witness_PushThenPopCopies :
    Names 0 0 ∧ Names 7 7 ∧ Names 6 6 ∧ (6 : Fin 8) ≠ 7 ∧ State.reset.mem.wf ∧ State.reset.regWritten 0 = true ∧
      State.reset.regWritten 7 = true := by decide

theorem witness_CallThenRetReturns : Names 7 7 ∧ State.reset.mem.wf ∧ State.reset.regWritten 7 = true := by decide

theorem witness_CompareThenBranch :
    Names 0 0 ∧ Names 1 1 ∧ Names 7 7 ∧ State.reset.regWritten 0 = true ∧ State.reset.regWritten 1 = true ∧
      State.reset.regWritten 7 = true ∧ State.reset.reg 0 = State.reset.reg 1 ∧ State.reset.reg 0 ≠ State.reset.reg 7 := by decide

/-- PUSH R0 then JMP R1, with R1 at the new SP. -/
theorem witness_PushedByteIsFetchedAsOpcode :
    State.reset.mem.wf ∧ Names 0 0 ∧ Names 1 1 ∧ (0 : Fin 8) ≠ 7 ∧
      (nextOf (exec (.push 0) (State.reset.writeReg 1 0xF3))).map
        (fun t => (decide (t.reg 1 = t.sp), (nextOf (exec (.jmp 1) t)).isSome)) = some (true, true) := by decide

theorem witness_SelfJumpRunsForever :
    let s := (at_ 0xFE [0x54, 1]).writeReg 1 0xFE
    s.run = .running ∧ s.pc.toNat < 255 ∧ s.byteAt s.pc = 0x54 ∧ Names (s.byteAt (s.pc + 1)) 1 ∧
      s.regWritten 1 = true ∧ s.reg 1 = s.pc := by decide

end Sys2Proof.Machine.Tests
end

namespace Sys2Proof.Machine

/-! ## What a step can do: the inversion every proof about steps uses -/

/-- The instruction an opcode makes of the two bytes after `pc` (R80, R115). -/
def State.instrAt (s : State) (o : Opcode) : Instr := o.instr (s.byteAt (s.pc + 1)) (s.byteAt (s.pc + 2))

@[simp] theorem State.opcode_instrAt (s : State) (o : Opcode) : (s.instrAt o).opcode = o :=
  Opcode.opcode_instr o _ _

/-- Three bytes decode exactly as dispatch and the opcode's instruction say; they are never too few (R80, R87). -/
theorem decode_three (b0 b1 b2 : Byte) (i : Instr) :
    (∃ rest, decode [b0, b1, b2] = .ok i rest) ↔ ∃ o, Opcode.ofByte? b0 = some o ∧ i = o.instr b1 b2 := by
  cases h : Opcode.ofByte? b0 with
  | none => simp [decode, h]
  | some o => cases o <;> simp [decode, h, Opcode.count_eq, Opcode.format, Opcode.instr, eq_comm]

/-- The bytes at `pc` decode to the instruction of the opcode found there, and to nothing else. -/
theorem State.decode_fetched (s : State) (i : Instr) :
    (∃ rest, decode [s.byteAt s.pc, s.byteAt (s.pc + 1), s.byteAt (s.pc + 2)] = .ok i rest) ↔
      ∃ o, Opcode.ofByte? (s.byteAt s.pc) = some o ∧ i = s.instrAt o :=
  decode_three _ _ _ i

/-- What each instruction does when it passes its operand check and reads nothing unwritten: one chain of updates
a constructor. -/
inductive ExecEffect (s : State) : Instr → State → Prop where
  | hlt : ExecEffect s .hlt (s.halt.advance 1)
  | ldi {b imm : Byte} {r : Fin 8} (hr : b.toNat = r.val) :
      ExecEffect s (.ldi b imm) ((s.writeReg r imm).advance 3)
  | prn {b : Byte} {r : Fin 8} (hr : b.toNat = r.val) : ExecEffect s (.prn b) ((s.emit (s.reg r)).advance 2)
  | mul {bA bB : Byte} {rA rB : Fin 8} (hA : bA.toNat = rA.val) (hB : bB.toNat = rB.val) :
      ExecEffect s (.mul bA bB) ((s.writeReg rA (aluMul (s.reg rA) (s.reg rB))).advance 3)
  | add {bA bB : Byte} {rA rB : Fin 8} (hA : bA.toNat = rA.val) (hB : bB.toNat = rB.val) :
      ExecEffect s (.add bA bB) ((s.writeReg rA (aluAdd (s.reg rA) (s.reg rB))).advance 3)
  | cmp {bA bB : Byte} {rA rB : Fin 8} (hA : bA.toNat = rA.val) (hB : bB.toNat = rB.val) :
      ExecEffect s (.cmp bA bB) ((s.writeFl (compareFlags (s.reg rA) (s.reg rB))).advance 3)
  | push {b : Byte} {r : Fin 8} (hr : b.toNat = r.val) :
      ExecEffect s (.push b) ((s.decSp.storeByte s.decSp.sp (s.decSp.reg r)).advance 2)
  | pop {b : Byte} {r : Fin 8} (hr : b.toNat = r.val) :
      ExecEffect s (.pop b) ((s.writeReg r (s.byteAt s.sp)).incSp.advance 2)
  | call {b : Byte} {r : Fin 8} (hr : b.toNat = r.val) :
      ExecEffect s (.call b)
        (((s.noteSum s.pc 2).decSp.storeByte s.decSp.sp (addrAdd s.pc 2)).setPc (s.decSp.reg r))
  | ret : ExecEffect s .ret (s.setPc (s.byteAt s.sp)).incSp
  | jmp {b : Byte} {r : Fin 8} (hr : b.toNat = r.val) : ExecEffect s (.jmp b) (s.setPc (s.reg r))
  | jeqTaken {b : Byte} {r : Fin 8} (hr : b.toNat = r.val) (he : flagE s.fl = true) :
      ExecEffect s (.jeq b) (s.setPc (s.reg r))
  | jeqFallsThrough {b : Byte} {r : Fin 8} (hr : b.toNat = r.val) (he : flagE s.fl = false) :
      ExecEffect s (.jeq b) (s.advance 2)
  | jneTaken {b : Byte} {r : Fin 8} (hr : b.toNat = r.val) (he : flagE s.fl = false) :
      ExecEffect s (.jne b) (s.setPc (s.reg r))
  | jneFallsThrough {b : Byte} {r : Fin 8} (hr : b.toNat = r.val) (he : flagE s.fl = true) :
      ExecEffect s (.jne b) (s.advance 2)

/-- An instruction that answers a next state has entered Error with its state kept, or had its effect. -/
theorem execEffect_of_exec {i : Instr} {s t : State} (h : exec i s = .next t) :
    (i.wellFormed = false ∧ t = s.enterError .badRegister) ∨ ExecEffect s i t := by
  obtain hbad | ⟨rfl, rfl⟩ | ⟨b, imm, r, rfl, hr, rfl⟩ | ⟨b, r, rfl, hr, rfl⟩ |
    ⟨bA, bB, rA, rB, hA, hB, ⟨rfl, rfl⟩ | ⟨rfl, rfl⟩ | ⟨rfl, rfl⟩⟩ | ⟨b, r, rfl, hr, rfl⟩ |
    ⟨b, r, rfl, hr, rfl⟩ | ⟨b, r, rfl, hr, rfl⟩ | ⟨rfl, rfl⟩ | ⟨b, r, rfl, hr, rfl⟩ |
    ⟨b, r, rfl | rfl, hr, -⟩ := exec_next h
  · exact .inl hbad
  · exact .inr .hlt
  · exact .inr (.ldi hr)
  · exact .inr (.prn hr)
  · exact .inr (.mul hA hB)
  · exact .inr (.add hA hB)
  · exact .inr (.cmp hA hB)
  · exact .inr (.push hr)
  · exact .inr (.pop hr)
  · exact .inr (.call hr)
  · exact .inr .ret
  · exact .inr (.jmp hr)
  · obtain ⟨hb, -⟩ | ⟨q, hq, -, ⟨he, -, rfl⟩ | ⟨he, rfl⟩⟩ := branchIf_next h
    · omega
    · exact .inr (.jeqTaken hq he)
    · exact .inr (.jeqFallsThrough hq he)
  · obtain ⟨hb, -⟩ | ⟨q, hq, -, ⟨he, -, rfl⟩ | ⟨he, rfl⟩⟩ := branchIf_next h
    · omega
    · exact .inr (.jneTaken hq (by simpa using he))
    · exact .inr (.jneFallsThrough hq (by simpa using he))

/-- What a step of a Running state does when it answers a next state (R110): the two entries into Error, or the
effect of the instruction at `pc` after its operand fetch. -/
inductive StepEffect (s : State) : State → Prop where
  | unknownOpcode (ho : Opcode.ofByte? (s.byteAt s.pc) = none) : StepEffect s (s.enterError .unknownOpcode)
  | badRegister {o : Opcode} (ho : Opcode.ofByte? (s.byteAt s.pc) = some o)
      (hw : (s.instrAt o).wellFormed = false) : StepEffect s (s.enterError .badRegister)
  | runs {o : Opcode} {t : State} (ho : Opcode.ofByte? (s.byteAt s.pc) = some o)
      (he : ExecEffect (s.noteOperandFetch (s.instrAt o)) (s.instrAt o) t) : StepEffect s t

theorem stepEffect_of_step {s t : State} (h : step s = .next t) : s.run = .running ∧ StepEffect s t := by
  obtain ⟨hrun, h⟩ := run_of_step_next h
  refine ⟨hrun, ?_⟩
  obtain ⟨ho, e⟩ | ⟨o, i, ho, hi, e⟩ := fetchAndRun_cases s
  · obtain rfl : s.enterError .unknownOpcode = t := by simpa [e] using h
    exact .unknownOpcode ho
  · obtain rfl : i = s.instrAt o := by rw [hi, addrAdd_eq, addrAdd_eq]; rfl
    obtain ⟨hw, rfl⟩ | he := execEffect_of_exec (e ▸ h)
    · rw [State.noteOperandFetch_ill_formed s _ hw]
      exact .badRegister ho hw
    · exact .runs ho he

/-! ### What an effect does to each piece of the state -/

section Effect

variable {s t : State} {i : Instr}

/-- Only a well-formed instruction has an effect (R116). -/
theorem ExecEffect.wellFormed (h : ExecEffect s i t) : i.wellFormed = true := by
  cases h <;> simp_all [Instr.wellFormed, Instr.regOperands]

/-- HLT is the only instruction that changes the run state (R118, R140). -/
theorem ExecEffect.run_eq (h : ExecEffect s i t) : t.run = if i = .hlt then .halted else s.run := by
  cases h <;> simp

/-- Only CMP changes `fl`, and it writes the whole byte (R28, R154). -/
theorem ExecEffect.flags (h : ExecEffect s i t) :
    KeepsFlags s t ∨ ∃ bA bB p q, i = .cmp bA bB ∧ t.fl = compareFlags p q ∧ t.flWritten = true := by
  cases h with
  | cmp hA hB => exact .inr ⟨_, _, _, _, rfl, rfl, rfl⟩
  | _ => exact .inl ⟨rfl, rfl⟩

/-- Only PRN changes the output, by the byte of its register (R35, R142). -/
theorem ExecEffect.out_eq (h : ExecEffect s i t) :
    t.out = s.out ∨ ∃ (b : Byte) (r : Fin 8), i = .prn b ∧ Names b r ∧ t.out = s.out ++ [s.reg r] := by
  cases h with
  | prn hr => exact .inr ⟨_, _, rfl, hr, rfl⟩
  | _ => exact .inl rfl

/-- No effect unwrites a register (R32). -/
theorem ExecEffect.regWritten (h : ExecEffect s i t) (q : Fin 8) (hq : s.regWritten q = true) :
    t.regWritten q = true := by
  cases h <;> simp [State.regWritten_writeReg, hq]

/-- Every effect keeps memory canonical (R51). -/
theorem ExecEffect.mem_wf (h : ExecEffect s i t) (hm : s.mem.wf) : t.mem.wf := by
  cases h with
  | push hr => exact Memory.write_wf _ hm _ _
  | call hr => exact Memory.write_wf _ hm _ _
  | _ => exact hm

/-- After its operand fetch an effect forms no address sum, or one that is the largest of the step (R52, R113). -/
theorem ExecEffect.notes (h : ExecEffect s i t) :
    (t.wrapNoted = s.wrapNoted ∧ largestSum i s = i.opcode.count) ∨
      (t.wrapNoted = (s.wrapNoted || sumWraps s.pc (largestSum i s)) ∧ i.opcode.count ≤ largestSum i s) := by
  have hw := h.wellFormed
  cases h with
  | ret | jmp | jeqTaken | jneTaken =>
    left; simp_all [largestSum, flagE, Instr.opcode, Opcode.count_eq, Opcode.format]
  | _ => right; simp_all [largestSum, flagE, Instr.opcode, Opcode.count_eq, Opcode.format]

/-- The notes after an instruction whose operand fetch is noted are those of its largest address sum (R31, R52). -/
theorem ExecEffect.wrapNoted_of_noteOperandFetch {s : State} (h : ExecEffect (s.noteOperandFetch i) i t) :
    t.wrapNoted = (s.wrapNoted || decide (255 < s.pc.toNat + largestSum i s)) := by
  have hfetch : (s.noteOperandFetch i).wrapNoted = (s.wrapNoted || decide (255 < s.pc.toNat + i.opcode.count)) := by
    simp [State.noteOperandFetch, h.wellFormed, operandFetchWraps_eq _ i.opcode.count_le]
  have hsame : largestSum i (s.noteOperandFetch i) = largestSum i s := rfl
  obtain ⟨hn, hsum⟩ | ⟨hn, hle⟩ := hsame ▸ h.notes
  · rw [hn, hfetch, ← hsum]
  · rw [hn, hfetch, sumWraps_eq, Bool.or_assoc, ← Bool.decide_or]
    congr 1
    exact decide_eq_decide.mpr ⟨fun hs => by rcases hs with hs | hs; exacts [by omega, hs], .inr⟩

end Effect

/-! ## What every step keeps and changes -/

section StepRules

variable {s t : State}

/-- After an effect of a Running state the flag `wrapped` is what is noted: the run state is no Error. -/
theorem ExecEffect.wrapped_eq {i : Instr} (h : ExecEffect s i t) (hrun : s.run = .running) :
    t.wrapped = t.wrapNoted := by
  have ht := h.run_eq
  split at ht
  · exact t.wrapped_halted ht
  · exact t.wrapped_running (ht.trans hrun)

/-- A byte that is no opcode forms no address sum: the flag reads as before (R112). -/
theorem StepEffect.wrapped_of_unknownOpcode (h : StepEffect s t) (hrun : s.run = .running)
    (ho : Opcode.ofByte? (s.byteAt s.pc) = none) : t.wrapped = s.wrapped := by
  cases h with
  | unknownOpcode => rw [State.wrapped_enterError_unknownOpcode, s.wrapped_running hrun]
  | badRegister ho' | runs ho' => simp [ho] at ho'

/-- The flag after a step that dispatches: set before, or by the largest address sum (R31, R52, R115). -/
theorem StepEffect.wrapped_of_opcode (h : StepEffect s t) (hrun : s.run = .running) {o : Opcode}
    (ho : Opcode.ofByte? (s.byteAt s.pc) = some o) :
    t.wrapped = (s.wrapped || decide (255 < s.pc.toNat + largestSum (s.instrAt o) s)) := by
  rw [s.wrapped_running hrun]
  cases h with
  | unknownOpcode ho' => simp [ho] at ho'
  | @badRegister o' ho' hw =>
    obtain rfl : o = o' := by simpa [ho] using ho'
    have hcount : countField (s.byteAt s.pc) = o.count := by rw [Opcode.byte_of_ofByte? ho, Opcode.count]
    have hsum : largestSum (s.instrAt o) s = o.count := by
      simp [largestSum, hw, encode_length_sub_one]
    rw [State.wrapped_enterError_badRegister, hcount, operandFetchWraps_eq _ o.count_le, hsum]
  | @runs o' _ ho' he =>
    obtain rfl : o = o' := by simpa [ho] using ho'
    rw [he.wrapped_eq hrun, he.wrapNoted_of_noteOperandFetch]

/-- A set flag stays set over a step (R31). -/
theorem StepEffect.wrapped_sticky (h : StepEffect s t) (hrun : s.run = .running) (hs : s.wrapped = true) :
    t.wrapped = true := by
  cases ho : Opcode.ofByte? (s.byteAt s.pc) with
  | none => rw [h.wrapped_of_unknownOpcode hrun ho, hs]
  | some o => rw [h.wrapped_of_opcode hrun ho, hs, Bool.true_or]

/-- No step unwrites a register (R32). -/
theorem StepEffect.regWritten (h : StepEffect s t) (q : Fin 8) (hq : s.regWritten q = true) :
    t.regWritten q = true := by
  cases h with
  | unknownOpcode | badRegister => exact hq
  | runs _ he => exact he.regWritten q hq

/-- No step unwrites `fl` (R32). -/
theorem StepEffect.flWritten (h : StepEffect s t) (hf : s.flWritten = true) : t.flWritten = true := by
  cases h with
  | unknownOpcode | badRegister => exact hf
  | runs _ he =>
    obtain ⟨-, hw⟩ | ⟨_, _, _, _, -, -, hw⟩ := he.flags
    · exact hw.trans hf
    · exact hw

/-- The two bytes that stand at `pc` and after it when the instruction there is PRN. -/
theorem State.instrAt_eq_prn {o : Opcode} {b : Byte} (ho : Opcode.ofByte? (s.byteAt s.pc) = some o)
    (h : s.instrAt o = .prn b) : s.byteAt s.pc = 0x47 ∧ s.byteAt (s.pc + 1) = b := by
  obtain rfl : o = .prn := by rw [← s.opcode_instrAt o, h]; rfl
  exact ⟨Opcode.byte_of_ofByte? ho, Instr.prn.inj h⟩

/-- A step outputs nothing, or it is a PRN and outputs its register (R35). -/
theorem StepEffect.out_eq (h : StepEffect s t) :
    t.out = s.out ∨
      (s.byteAt s.pc = 0x47 ∧ ∃ r : Fin 8, Names (s.byteAt (s.pc + 1)) r ∧ t.out = s.out ++ [s.reg r]) := by
  cases h with
  | unknownOpcode | badRegister => exact .inl rfl
  | runs ho he =>
    obtain hout | ⟨b, r, hi, hr, hout⟩ := he.out_eq
    · exact .inl hout
    · obtain ⟨hop, rfl⟩ := State.instrAt_eq_prn ho hi
      exact .inr ⟨hop, r, hr, hout⟩

/-- The byte 0x01 at `pc` is dispatched to HLT, and no other byte makes a HLT (R84). -/
theorem State.instrAt_eq_hlt_iff {o : Opcode} (ho : Opcode.ofByte? (s.byteAt s.pc) = some o) :
    s.instrAt o = .hlt ↔ s.byteAt s.pc = 0x01 := by
  rw [Opcode.byte_of_ofByte? ho, State.instrAt]
  cases o <;> simp [Opcode.instr, Opcode.byte]

/-- The run state after the effect of the instruction at `pc` is Halted or Running, never Error. -/
theorem ExecEffect.run_of_fetched {o : Opcode} (ho : Opcode.ofByte? (s.byteAt s.pc) = some o)
    (hrun : s.run = .running) (h : ExecEffect (s.noteOperandFetch (s.instrAt o)) (s.instrAt o) t) :
    t.run = if s.byteAt s.pc = 0x01 then .halted else .running := by
  simp only [h.run_eq, State.instrAt_eq_hlt_iff ho, State.noteOperandFetch_run, hrun]

/-- A step halts exactly at a HLT (R118). -/
theorem StepEffect.halted_iff (h : StepEffect s t) (hrun : s.run = .running) :
    t.run = .halted ↔ s.byteAt s.pc = 0x01 := by
  cases h with
  | unknownOpcode ho =>
    have hne : s.byteAt s.pc ≠ 0x01 := fun e => by rw [e] at ho; exact absurd ho (by decide)
    exact iff_of_false nofun hne
  | badRegister ho hw =>
    have hne : s.byteAt s.pc ≠ 0x01 := fun e => by
      rw [(State.instrAt_eq_hlt_iff ho).mpr e] at hw; exact absurd hw (by decide)
    exact iff_of_false nofun hne
  | runs ho he => simp [he.run_of_fetched ho hrun]

/-- A step enters Error with cause UnknownOpcode exactly at a byte of no opcode (R112, R119). -/
theorem StepEffect.unknownOpcode_iff (h : StepEffect s t) (hrun : s.run = .running) (a : Addr) :
    t.run = .error a .unknownOpcode ↔ a = s.pc ∧ Opcode.ofByte? (s.byteAt s.pc) = none := by
  cases h with
  | unknownOpcode ho => simpa [ho] using eq_comm
  | badRegister ho => simp [ho]
  | runs ho he => rw [he.run_of_fetched ho hrun]; split <;> simp [ho]

/-- A step enters Error with cause BadRegister exactly at an instruction with an illegal register byte (R116, R119). -/
theorem StepEffect.badRegister_iff (h : StepEffect s t) (hrun : s.run = .running) (a : Addr) :
    t.run = .error a .badRegister ↔
      a = s.pc ∧ ∃ o, Opcode.ofByte? (s.byteAt s.pc) = some o ∧ (s.instrAt o).wellFormed = false := by
  cases h with
  | unknownOpcode ho => simp [ho]
  | badRegister ho hw => simpa [ho, hw] using eq_comm
  | runs ho he => rw [he.run_of_fetched ho hrun]; split <;> simp [ho, he.wellFormed]

/-- What holds of an instruction that the bytes at `pc` decode to, said of the opcode found there. -/
theorem State.exists_decoded_iff (s : State) (P : Instr → Prop) :
    (∃ i rest, decode [s.byteAt s.pc, s.byteAt (s.pc + 1), s.byteAt (s.pc + 2)] = .ok i rest ∧ P i) ↔
      ∃ o, Opcode.ofByte? (s.byteAt s.pc) = some o ∧ P (s.instrAt o) := by
  simp only [exists_and_right, s.decode_fetched]
  constructor
  · rintro ⟨_, ⟨o, ho, rfl⟩, h⟩; exact ⟨o, ho, h⟩
  · rintro ⟨o, ho, h⟩; exact ⟨_, ⟨o, ho, rfl⟩, h⟩

end StepRules

/-! ### What only accumulates along a run -/

/-- From `s` to `t`, in `k` steps: `wrapped` and the written marks are kept, and output is appended to, at most a byte
a step (R31, R32, R35). -/
structure Accumulates (k : Nat) (s t : State) : Prop where
  wrapped : s.wrapped = true → t.wrapped = true
  regs : ∀ r, s.regWritten r = true → t.regWritten r = true
  fl : s.flWritten = true → t.flWritten = true
  out : ∃ v, t.out = s.out ++ v ∧ v.length ≤ k

theorem Accumulates.refl (s : State) : Accumulates 0 s s := ⟨id, fun _ => id, id, [], by simp, by simp⟩

theorem Accumulates.trans {j k : Nat} {s t u : State} (h : Accumulates j s t) (h' : Accumulates k t u) :
    Accumulates (k + j) s u := by
  obtain ⟨v, hv, hvlen⟩ := h.out
  obtain ⟨w, hw, hwlen⟩ := h'.out
  exact ⟨h'.wrapped ∘ h.wrapped, fun r => h'.regs r ∘ h.regs r, h'.fl ∘ h.fl,
    v ++ w, by rw [hw, hv, List.append_assoc], by rw [List.length_append]; omega⟩

theorem accumulates_of_step {s t : State} (h : step s = .next t) : Accumulates 1 s t := by
  obtain ⟨hrun, h⟩ := stepEffect_of_step h
  refine ⟨h.wrapped_sticky hrun, h.regWritten, h.flWritten, ?_⟩
  obtain hout | ⟨_, r, _, hout⟩ := h.out_eq
  · exact ⟨[], by simp [hout], by simp⟩
  · exact ⟨[s.reg r], hout, by simp⟩

/-- A run of `k + 1` steps that answers a state is a step and a run of `k`. -/
theorem runSteps_succ_next {k : Nat} {s t : State} (h : runSteps (k + 1) s = .next t) :
    ∃ u, step s = .next u ∧ runSteps k u = .next t := by
  cases hs : step s with
  | next u => exact ⟨u, rfl, by rwa [runSteps_next k hs] at h⟩
  | fault f => simp [runSteps_fault k hs] at h
  | refused r => simp [runSteps_refused k hs] at h

theorem accumulates_of_runSteps {k : Nat} {s t : State} (h : runSteps k s = .next t) : Accumulates k s t := by
  induction k generalizing s with
  | zero => cases h; exact .refl _
  | succ k ih =>
    obtain ⟨u, hs, hk⟩ := runSteps_succ_next h
    exact (accumulates_of_step hs).trans (ih hk)

/-- Settles O34, by induction on the number of steps. -/
theorem runsOnlyAccumulate : Obligations.RunsOnlyAccumulate := by
  intro k s t h
  obtain ⟨hwrapped, hregs, hfl, hout⟩ := accumulates_of_runSteps h
  exact ⟨hwrapped, hregs, hfl, hout⟩

/-! ### Legal states -/

section Legality

variable {s t : State}

theorem flLegal_compareFlags (p q : Byte) : flLegal (compareFlags p q) := by
  obtain ⟨-, h⟩ | ⟨-, h⟩ | ⟨-, h⟩ := compareFlags_cases p q <;> simp [flLegal, h]

theorem StepEffect.mem_wf (h : StepEffect s t) (hm : s.mem.wf) : t.mem.wf := by
  cases h with
  | unknownOpcode | badRegister => exact hm
  | runs _ he => exact he.mem_wf hm

theorem StepEffect.flLegal (h : StepEffect s t) (hf : flLegal s.fl) : flLegal t.fl := by
  cases h with
  | unknownOpcode | badRegister => exact hf
  | runs _ he =>
    obtain ⟨hfl, -⟩ | ⟨_, _, p, q, -, hfl, -⟩ := he.flags
    · rw [hfl]; exact hf
    · rw [hfl]; exact flLegal_compareFlags p q

/-- A halting step leaves `pc` just after the HLT it ran, which still stands there (R118, R140). -/
theorem ExecEffect.endExplained {i : Instr} (h : ExecEffect s i t) (hrun : s.run = .running)
    (hop : i = .hlt → s.byteAt s.pc = 0x01) : t.EndExplained := by
  cases h with
  | hlt =>
    have hpc : (s.halt.advance 1).pc - 1 = s.pc := by simp [addrAdd_eq]
    show (s.halt.advance 1).byteAt ((s.halt.advance 1).pc - 1) = 0x01
    rw [hpc]
    exact hop rfl
  | _ => simp [State.EndExplained, hrun]

theorem StepEffect.endExplained (h : StepEffect s t) (hrun : s.run = .running) : t.EndExplained := by
  cases h with
  | unknownOpcode ho => exact ⟨rfl, ho⟩
  | badRegister ho hw =>
    obtain ⟨rest, hd⟩ := (s.decode_fetched _).mpr ⟨_, ho, rfl⟩
    exact ⟨rfl, _, rest, hd, hw⟩
  | runs ho he => exact he.endExplained hrun (State.instrAt_eq_hlt_iff ho).mp

end Legality

/-- Settles O36: each part of legality is kept by every step. -/
theorem stepKeepsLegality : Obligations.StepKeepsLegality := by
  intro s t ⟨hmem, ⟨hregs, hfl⟩, hflags, _⟩ h
  obtain ⟨hrun, h⟩ := stepEffect_of_step h
  exact ⟨h.mem_wf hmem, ⟨fun r => h.regWritten r (hregs r), h.flWritten hfl⟩, h.flLegal hflags,
    h.endExplained hrun⟩

/-- Settles O50: a byte of no opcode forms no address sum, any other the largest of its instruction. -/
theorem wrappedIsSetExactlyByASumPast255 : Obligations.WrappedIsSetExactlyByASumPast255 := by
  intro s t h
  obtain ⟨hrun, h⟩ := stepEffect_of_step h
  refine ⟨fun i rest hd => ?_, h.wrapped_of_unknownOpcode hrun⟩
  obtain ⟨o, ho, rfl⟩ := (s.decode_fetched i).mp ⟨rest, hd⟩
  exact h.wrapped_of_opcode hrun ho

/-- Settles O30, from what a step does to the output. -/
theorem onlyPrnOutputs : Obligations.OnlyPrnOutputs := fun _ _ h => (stepEffect_of_step h).2.out_eq

/-- Settles O31: one equivalence for each way out of Running. -/
theorem runStateTransitions : Obligations.RunStateTransitions := by
  intro s t h
  obtain ⟨hrun, h⟩ := stepEffect_of_step h
  refine ⟨h.halted_iff hrun, h.unknownOpcode_iff hrun, fun a => ?_⟩
  rw [s.exists_decoded_iff, h.badRegister_iff hrun]

/-! ### The model fault -/

section Faults

variable {s : State} {f : Fault}

/-- The fault names a register other than R7, or `fl`, that is unwritten in `s` (R32, R207). -/
def State.Blames (s : State) (f : Fault) : Prop :=
  (∃ r : Fin 8, f = .unwrittenRead (.reg r) ∧ r ≠ 7 ∧ s.regWritten r = false) ∨
    (f = .unwrittenRead .fl ∧ s.flWritten = false)

/-- The operand check raises no fault of its own (R116). -/
theorem withReg_fault {b : Byte} {k : Fin 8 → Result} (h : withReg b s k = .fault f) : ∃ r, k r = .fault f := by
  obtain ⟨-, e⟩ | ⟨r, -, e⟩ := withReg_cases b s k
  · simp [e] at h
  · exact ⟨r, e ▸ h⟩

theorem readReg_fault {r : Fin 8} {k : Byte → Result} (h : readReg r s k = .fault f) :
    s.Blames f ∨ k (s.reg r) = .fault f := by
  cases hw : s.regWritten r with
  | true => exact .inr (by rwa [readReg_ok r s hw] at h)
  | false =>
    have hf : Fault.unwrittenRead (.reg r) = f := by simpa [readReg_unwritten r s hw] using h
    have hr : r ≠ 7 := by rintro rfl; simp at hw
    exact .inl (.inl ⟨r, hf.symm, hr, hw⟩)

theorem readFl_fault {k : Byte → Result} (h : readFl s k = .fault f) : s.Blames f ∨ k s.fl = .fault f := by
  cases hw : s.flWritten with
  | true => exact .inr (by rwa [readFl_ok s hw] at h)
  | false =>
    have hf : Fault.unwrittenRead .fl = f := by simpa [readFl_unwritten s hw] using h
    exact .inl (.inr ⟨hf.symm, hw⟩)

/-- A checked instruction whose handler only reads its register faults on that register (PRN, JMP; R142, R183). -/
theorem withReg_readReg_fault {b : Byte} {g : Byte → State}
    (h : (withReg b s fun i => readReg i s fun v => .next (g v)) = .fault f) : s.Blames f := by
  obtain ⟨r, h⟩ := withReg_fault h
  exact (readReg_fault h).resolve_right nofun

/-- What MUL, ADD and CMP share: the fault is on one of the two operands (R152 to R154). -/
theorem withRegs_readRegs_fault {bA bB : Byte} {g : Fin 8 → Byte → Byte → State}
    (h : (withRegs bA bB s fun rA rB => readRegs rA rB s fun p q => .next (g rA p q)) = .fault f) :
    s.Blames f := by
  obtain ⟨rA, h⟩ := withReg_fault h
  obtain ⟨rB, h⟩ := withReg_fault h
  obtain hb | h := readReg_fault h
  · exact hb
  · exact (readReg_fault h).resolve_right nofun

theorem branchIf_fault {taken : Byte → Bool} {b : Byte} (h : branchIf taken b s = .fault f) : s.Blames f := by
  obtain ⟨r, h⟩ := withReg_fault h
  obtain hb | h := readFl_fault h
  · exact hb
  · split at h
    · exact (readReg_fault h).resolve_right nofun
    · cases h

/-- An instruction's fault names something unwritten; PUSH and CALL read after the decrement, which keeps every
mark (R171, R181). -/
theorem exec_fault {i : Instr} (h : exec i s = .fault f) : s.Blames f := by
  cases i with
  | hlt | ret => cases h
  | ldi b imm | pop b =>
    simp only [exec, execLdi, execPop] at h
    obtain ⟨r, h⟩ := withReg_fault h
    cases h
  | prn b | jmp b =>
    simp only [exec, execPrn, execJmp] at h
    exact withReg_readReg_fault h
  | mul bA bB | add bA bB | cmp bA bB =>
    simp only [exec, execMul, execAdd, execCmp, aluToReg] at h
    exact withRegs_readRegs_fault h
  | push b | call b =>
    simp only [exec, execPush, execCall] at h
    obtain ⟨r, h⟩ := withReg_fault h
    exact (readReg_fault h).resolve_right nofun
  | jeq b | jne b => exact branchIf_fault h

end Faults

/-- A step faults only where its instruction does, after the operand fetch (R110, R207). -/
theorem exec_fault_of_step {s : State} {f : Fault} (h : step s = .fault f) :
    ∃ i, exec i (s.noteOperandFetch i) = .fault f := by
  unfold step at h
  split at h
  · obtain ⟨-, e⟩ | ⟨o, i, -, -, e⟩ := fetchAndRun_cases s
    · simp [e] at h
    · exact ⟨i, e ▸ h⟩
  · cases h
  · cases h

/-- Settles O13: only an instruction's reads fault, and the operand fetch before them leaves every mark. -/
theorem faultNamesSomethingUnwritten : Obligations.FaultNamesSomethingUnwritten := by
  intro s f h
  obtain ⟨i, h⟩ := exec_fault_of_step h
  have hb : (s.noteOperandFetch i).Blames f := exec_fault h
  exact hb

/-! ### Who reads and writes `fl` -/

section Congruence

variable {g : State → State} {s s' : State}

/-- Two operand checks of one byte answer alike under `g` when what follows them does. -/
theorem mapNext_withReg_congr {b : Byte} {k k' : Fin 8 → Result}
    (herr : g (s.enterError .badRegister) = g (s'.enterError .badRegister))
    (hk : ∀ r, mapNext g (k r) = mapNext g (k' r)) :
    mapNext g (withReg b s k) = mapNext g (withReg b s' k') := by
  by_cases hb : b.toNat < 8
  · rw [withReg_ok b ⟨_, hb⟩ rfl, withReg_ok b ⟨_, hb⟩ rfl, hk]
  · rw [withReg_bad b (by omega), withReg_bad b (by omega), mapNext, mapNext, herr]

theorem mapNext_readReg_congr {r : Fin 8} {k k' : Byte → Result} (hw : s.regWritten r = s'.regWritten r)
    (hk : mapNext g (k (s.reg r)) = mapNext g (k' (s'.reg r))) :
    mapNext g (readReg r s k) = mapNext g (readReg r s' k') := by
  unfold readReg
  rw [hw]
  split
  · exact hk
  · rfl

theorem mapNext_readFl_congr {k k' : Byte → Result} (hw : s.flWritten = s'.flWritten)
    (hk : mapNext g (k s.fl) = mapNext g (k' s'.fl)) : mapNext g (readFl s k) = mapNext g (readFl s' k') := by
  unfold readFl
  rw [hw]
  split
  · exact hk
  · rfl

end Congruence

section Flags

variable {s t : State}

/-- An outcome without the byte in `fl`. -/
abbrev dropFl (t : State) : State := { t with fl := 0 }

/-- A branch reads of `fl` what its condition says, and nothing else (R184, R185). -/
theorem branchIf_congr_fl {taken : Byte → Bool} {f : Byte} (b : Byte) (h : taken f = taken s.fl) :
    mapNext dropFl (branchIf taken b { s with fl := f }) = mapNext dropFl (branchIf taken b s) := by
  refine mapNext_withReg_congr rfl fun r => mapNext_readFl_congr rfl ?_
  simp only [h]
  split
  · exact mapNext_readReg_congr rfl rfl
  · rfl

/-- Only JEQ and JNE depend on `fl`, and only on its bit 0 (R28). -/
theorem exec_congr_fl {i : Instr} {f : Byte}
    (h : (∀ b, i ≠ .jeq b ∧ i ≠ .jne b) ∨ f.getLsbD 0 = s.fl.getLsbD 0) :
    mapNext dropFl (exec i { s with fl := f }) = mapNext dropFl (exec i s) := by
  cases i with
  | hlt | ret => rfl
  | ldi b imm | pop b =>
    simp only [exec, execLdi, execPop]
    exact mapNext_withReg_congr rfl fun _ => rfl
  | prn b | jmp b | push b | call b =>
    simp only [exec, execPrn, execJmp, execPush, execCall]
    exact mapNext_withReg_congr rfl fun _ => mapNext_readReg_congr rfl rfl
  | mul bA bB | add bA bB | cmp bA bB =>
    simp only [exec, execMul, execAdd, execCmp, aluToReg]
    exact mapNext_withReg_congr rfl fun _ => mapNext_withReg_congr rfl fun _ =>
      mapNext_readReg_congr rfl (mapNext_readReg_congr rfl rfl)
  | jeq b => exact branchIf_congr_fl b (h.resolve_left fun hn => (hn b).1 rfl)
  | jne b => exact branchIf_congr_fl b (congrArg (!·) (h.resolve_left fun hn => (hn b).2 rfl))

/-- An instruction that is no CMP keeps `fl` and its mark, BadRegister included (R28). -/
theorem keepsFlags_of_exec {i : Instr} (hi : ∀ bA bB, i ≠ .cmp bA bB) (h : exec i s = .next t) :
    KeepsFlags s t := by
  obtain ⟨-, rfl⟩ | he := execEffect_of_exec h
  · exact ⟨rfl, rfl⟩
  · exact he.flags.resolve_right fun ⟨bA, bB, _, _, e, _⟩ => hi bA bB e

/-- A well-formed CMP does not depend on `fl` or its mark: it overwrites both (R154). -/
theorem exec_cmp_overwrites {bA bB : Byte} (f : Byte) (w : Bool) (h : (Instr.cmp bA bB).wellFormed = true) :
    exec (.cmp bA bB) { s with fl := f, flWritten := w } = exec (.cmp bA bB) s := by
  obtain ⟨hA, hB⟩ : bA.toNat < 8 ∧ bB.toNat < 8 := by simpa [Instr.wellFormed, Instr.regOperands] using h
  simp only [exec, execCmp]
  rw [withRegs_ok bA bB ⟨_, hA⟩ ⟨_, hB⟩ rfl rfl, withRegs_ok bA bB ⟨_, hA⟩ ⟨_, hB⟩ rfl rfl]
  rfl

end Flags

/-- Settles O28: the frame of `fl`, CMP's overwrite, and independence of `fl`. -/
theorem onlyCmpWritesFlagsOnlyBranchesReadThem : Obligations.OnlyCmpWritesFlagsOnlyBranchesReadThem :=
  ⟨fun _ _ _ hi h => keepsFlags_of_exec hi h, fun _ _ f w _ h => exec_cmp_overwrites f w h,
    fun _ _ _ h => exec_congr_fl h⟩

/-! ### Canonical memories -/

section Canonical

variable {c : Host.Cell} {m : Memory}

theorem Memory.wf_cons : Memory.wf (c :: m) ↔ (∀ d ∈ m, c.1 < d.1) ∧ (c.1 < 256 ∧ c.2 ≠ 0x00) ∧ Memory.wf m := by
  simp only [Memory.wf, List.pairwise_cons, List.forall_mem_cons]
  tauto

/-- Where a canonical memory's first entry stands, it reads that entry's byte, which is not 0x00. -/
theorem Memory.read_head (h : Memory.wf (c :: m)) : Memory.read (c :: m) (BitVec.ofNat 8 c.1) = c.2 := by
  obtain ⟨-, ⟨hlt, -⟩, -⟩ := Memory.wf_cons.mp h
  rw [Memory.read_cons, if_pos (by rw [BitVec.toNat_ofNat]; omega)]

/-- No canonical memory with an entry at `c` reads like one whose entries are all above `c`. -/
theorem Memory.not_read_alike_of_head_lt {n : Memory} (h : Memory.wf (c :: m)) (hn : ∀ d ∈ n, c.1 < d.1) :
    ∃ a, Memory.read (c :: m) a ≠ Memory.read n a := by
  obtain ⟨-, ⟨hlt, hne⟩, -⟩ := Memory.wf_cons.mp h
  refine ⟨BitVec.ofNat 8 c.1, ?_⟩
  rw [Memory.read_head h, Memory.read_of_lt n _ fun d hd => by
    rw [BitVec.toNat_ofNat, Nat.mod_eq_of_lt hlt]; exact hn d hd]
  exact hne

/-- Reading a canonical memory's tail: 0x00 up to the first entry's address, the memory's own byte above it. -/
theorem Memory.read_tail (h : Memory.wf (c :: m)) (a : Addr) :
    Memory.read m a = if c.1 = a.toNat then 0x00 else Memory.read (c :: m) a := by
  obtain ⟨hc, -, -⟩ := Memory.wf_cons.mp h
  split
  case isTrue ha => exact Memory.read_of_lt m a (ha ▸ hc)
  case isFalse ha => rw [Memory.read_cons, if_neg ha]

end Canonical

/-- The first entries agree, or the lower of the two is read in one memory alone. -/
theorem Memory.eq_of_read_eq {m n : Memory} (hm : m.wf) (hn : n.wf) (h : ∀ a, m.read a = n.read a) : m = n := by
  induction m generalizing n with
  | nil =>
    cases n with
    | nil => rfl
    | cons d n =>
      obtain ⟨a, ha⟩ := Memory.not_read_alike_of_head_lt (n := []) hn (by simp)
      exact absurd (h a).symm ha
  | cons c m ih =>
    cases n with
    | nil =>
      obtain ⟨a, ha⟩ := Memory.not_read_alike_of_head_lt (n := []) hm (by simp)
      exact absurd (h a) ha
    | cons d n =>
      obtain ⟨hc, -, hmw⟩ := Memory.wf_cons.mp hm
      obtain ⟨hd, -, hnw⟩ := Memory.wf_cons.mp hn
      obtain hlt | heq | hgt := lt_trichotomy c.1 d.1
      · obtain ⟨a, ha⟩ := Memory.not_read_alike_of_head_lt (n := d :: n) hm
          (List.forall_mem_cons.mpr ⟨hlt, fun e he => hlt.trans (hd e he)⟩)
        exact absurd (h a) ha
      · have hbyte : c.2 = d.2 := by rw [← Memory.read_head hm, ← Memory.read_head hn, heq, h]
        have htail : m = n := ih hmw hnw fun a => by rw [Memory.read_tail hm, Memory.read_tail hn, heq, h]
        rw [Prod.ext heq hbyte, htail]
      · obtain ⟨a, ha⟩ := Memory.not_read_alike_of_head_lt (n := c :: m) hn
          (List.forall_mem_cons.mpr ⟨hgt, fun e he => hgt.trans (hc e he)⟩)
        exact absurd (h a).symm ha

/-- Settles O38, by induction on the two lists. -/
theorem canonicalMemoriesThatReadAlikeAreEqual : Obligations.CanonicalMemoriesThatReadAlikeAreEqual :=
  fun _ _ hm hn h => Memory.eq_of_read_eq hm hn h

/-! ### Reset -/

/-- Settles O35. -/
theorem resetStateIsLegal : Obligations.ResetStateIsLegal :=
  ⟨State.reset_mem_wf, by decide, .inl rfl, trivial⟩

section Reset

variable (ri : Init (Vector Byte 7)) (fi : Init Byte)

theorem State.resetWith_value_reg (v : Vector Byte 7) (r : Fin 7) :
    (State.resetWith (.value v) fi).reg r.castSucc = v[r] := by
  simp [State.reg, State.resetWith]

theorem State.resetWith_regWritten (r : Fin 7) :
    (State.resetWith ri fi).regWritten r.castSucc = decide (ri ≠ .unwritten) := by
  cases ri <;> simp [State.regWritten, State.resetWith]

theorem State.resetWith_sp : (State.resetWith ri fi).sp = 0xF4 := by
  cases ri <;> simp [State.sp, State.reg, State.resetWith]

end Reset

/-- Settles O39: the fields that do not depend on the parameters, then R0 to R6 and `fl` for each form of theirs. -/
theorem resetPutsEveryPieceOfState : Obligations.ResetPutsEveryPieceOfState := by
  intro ri fi
  refine ⟨rfl, State.resetWith_sp ri fi, rfl, fun _ => rfl, rfl, rfl, rfl, ?_, ?_, ?_, ?_⟩
  · rintro v rfl r
    exact ⟨State.resetWith_value_reg fi v r, State.resetWith_regWritten (.value v) fi r⟩
  · rintro rfl r
    exact State.resetWith_regWritten .unwritten fi r
  · rintro v rfl
    exact ⟨rfl, rfl⟩
  · rintro rfl
    rfl

end Sys2Proof.Machine

namespace Sys2Proof.Machine

/-! ### Who writes and reads memory -/

section MemoryAccess

variable {s t : State} {i : Instr}

/-- A store leaves every byte but the one at its address (R51, R56). -/
theorem State.storeByte_keepsMemoryExcept (hm : s.mem.wf) (a : Addr) (v : Byte) :
    KeepsMemoryExcept a s (s.storeByte a v) :=
  fun c hc => by rw [State.byteAt_storeByte s hm, if_neg hc]

/-- Only PUSH and CALL store, and only at the decremented SP (R58, R63). -/
theorem ExecEffect.keepsMemory (h : ExecEffect s i t) (hm : s.mem.wf) :
    KeepsMemory s t ∨ (∃ b, i = .push b ∨ i = .call b) ∧ KeepsMemoryExcept s.decSp.sp s t := by
  cases h with
  | push hr => exact .inr ⟨⟨_, .inl rfl⟩, State.storeByte_keepsMemoryExcept (s := s.decSp) hm _ _⟩
  | call hr =>
    exact .inr ⟨⟨_, .inr rfl⟩, State.storeByte_keepsMemoryExcept (s := (s.noteSum s.pc 2).decSp) hm _ _⟩
  | _ => exact .inl fun _ => rfl

/-- A byte that changed was stored by a PUSH or a CALL at the decremented SP; BadRegister changes none (R119). -/
theorem stores_at_decSp_of_exec {a : Addr} (hm : s.mem.wf) (h : exec i s = .next t)
    (ha : t.byteAt a ≠ s.byteAt a) : (∃ b, i = .push b ∨ i = .call b) ∧ a = s.decSp.sp := by
  obtain ⟨-, rfl⟩ | he := execEffect_of_exec h
  · exact absurd rfl ha
  · obtain hkeep | ⟨hi, hkeep⟩ := he.keepsMemory hm
    · exact absurd (hkeep a) ha
    · exact ⟨hi, not_not.mp fun hne => ha (hkeep a hne)⟩

/-- An outcome without its memory. -/
abbrev dropMem (t : State) : State := { t with mem := [] }

/-- Only POP and RET depend on memory, and only on the byte at SP (R58, R63). -/
theorem exec_congr_mem {m : Memory}
    (h : ((∀ b, i ≠ .pop b) ∧ i ≠ .ret) ∨ m.read s.sp = s.mem.read s.sp) :
    mapNext dropMem (exec i { s with mem := m }) = mapNext dropMem (exec i s) := by
  cases i with
  | hlt => rfl
  | ldi b imm =>
    simp only [exec, execLdi]
    exact mapNext_withReg_congr rfl fun _ => rfl
  | prn b | jmp b | push b | call b =>
    simp only [exec, execPrn, execJmp, execPush, execCall]
    exact mapNext_withReg_congr rfl fun _ => mapNext_readReg_congr rfl rfl
  | mul bA bB | add bA bB | cmp bA bB =>
    simp only [exec, execMul, execAdd, execCmp, aluToReg]
    exact mapNext_withReg_congr rfl fun _ => mapNext_withReg_congr rfl fun _ =>
      mapNext_readReg_congr rfl (mapNext_readReg_congr rfl rfl)
  | jeq b | jne b =>
    simp only [exec, execJeq, execJne, branchIf]
    refine mapNext_withReg_congr rfl fun r => mapNext_readFl_congr rfl ?_
    split
    · exact mapNext_readReg_congr rfl rfl
    · rfl
  | pop b =>
    have hsp : State.byteAt { s with mem := m } s.sp = s.byteAt s.sp := h.resolve_left fun hn => hn.1 b rfl
    simp only [exec, execPop]
    refine mapNext_withReg_congr rfl fun r => ?_
    exact congrArg (fun v => Host.Outcome.next (dropMem ((s.writeReg r v).incSp.advance 2))) hsp
  | ret =>
    have hsp : State.byteAt { s with mem := m } s.sp = s.byteAt s.sp := h.resolve_left fun hn => hn.2 rfl
    exact congrArg (fun v => Host.Outcome.next (dropMem (s.setPc v).incSp)) hsp

/-- Settles O29: the frame of memory, then independence of memory outside the stack reads. -/
theorem onlyStackInstructionsReachMemory : Obligations.OnlyStackInstructionsReachMemory :=
  ⟨fun _ _ _ _ hm h ha => stores_at_decSp_of_exec hm h ha, fun _ _ _ h => exec_congr_mem h⟩

/-! ### A store is seen by a later fetch -/

/-- A checked instruction that reads its register once and goes on had the effect of the register's value. -/
theorem eq_of_withReg_readReg_next {b : Byte} {r : Fin 8} {s' : State} {g : Byte → State} (hb : Names b r)
    (h : (withReg b s fun i => readReg i s' fun v => .next (g v)) = .next t) : t = g (s'.reg r) := by
  rw [withReg_ok b r hb] at h
  obtain ⟨-, h⟩ := readReg_next h
  exact (Host.Outcome.next.inj h).symm

/-- A JMP that goes on fetches its next opcode at the address its register holds (R111, R183). -/
theorem fetchOpcode_of_exec_jmp {b : Byte} {r : Fin 8} (hb : Names b r) (h : exec (.jmp b) s = .next t) :
    t.fetchOpcode = s.byteAt (s.reg r) := by
  obtain rfl : t = s.setPc (s.reg r) := eq_of_withReg_readReg_next hb h
  rfl

/-- PUSH stores its register at the SP it leaves; the register is read after the decrement (R61, R171, D7). -/
theorem byteAt_sp_of_exec_push {b : Byte} {r : Fin 8} (hb : Names b r) (hm : s.mem.wf)
    (h : exec (.push b) s = .next t) : t.byteAt t.sp = s.decSp.reg r := by
  obtain rfl : t = (s.decSp.storeByte s.decSp.sp (s.decSp.reg r)).advance 2 :=
    eq_of_withReg_readReg_next (s' := s.decSp) hb h
  exact (State.byteAt_storeByte s.decSp hm _ _ _).trans (if_pos rfl)

end MemoryAccess

/-- Settles O48: the jump reaches the new SP, where PUSH stored its register, and fetching there reads memory. -/
theorem pushedByteIsFetchedAsOpcode : Obligations.PushedByteIsFetchedAsOpcode := by
  intro b c r q s t u hb hc hr hm hpush hq hjmp
  calc u.fetchOpcode
    _ = t.byteAt (t.reg q) := fetchOpcode_of_exec_jmp hc hjmp
    _ = s.decSp.reg r := by rw [hq, byteAt_sp_of_exec_push hb hm hpush]
    _ = s.reg r := State.reg_decSp_of_ne s r hr

end Sys2Proof.Machine

namespace Sys2Proof

/-! ### The decoder and the encoder are inverse to each other -/

/-- The operand bytes of the instruction an opcode makes are the first `count` of the two it was given, in address
order (R80, R81, D20). -/
theorem Opcode.operands_instr (o : Opcode) (b1 b2 : Byte) : (o.instr b1 b2).operands = [b1, b2].take o.count := by
  cases o <;> rfl

theorem Opcode.encode_instr (o : Opcode) (b1 b2 : Byte) :
    encode (o.instr b1 b2) = o.byte :: [b1, b2].take o.count := by
  rw [encode, Opcode.operands_instr, Machine.Opcode.opcode_instr]

/-- A byte of no row ends the decoding there, whatever follows (R88). -/
theorem decode_of_ofByte?_none {b : Byte} (h : Opcode.ofByte? b = none) (rest : List Byte) :
    decode (b :: rest) = .unknownOpcode b := by
  simp [decode, h]

theorem decode_of_count_zero {o : Opcode} (h : o.count = 0) (rest : List Byte) :
    decode (o.byte :: rest) = .ok (o.instr 0 0) rest := by
  simp [decode, h]

theorem decode_of_count_one {o : Opcode} (h : o.count = 1) (b1 : Byte) (rest : List Byte) :
    decode (o.byte :: b1 :: rest) = .ok (o.instr b1 0) rest := by
  simp [decode, h]

theorem decode_of_count_two {o : Opcode} (h : o.count = 2) (b1 b2 : Byte) (rest : List Byte) :
    decode (o.byte :: b1 :: b2 :: rest) = .ok (o.instr b1 b2) rest := by
  simp [decode, h]

/-- The decoder reads an encoded instruction back, by its number of operand bytes (R81, R91). -/
theorem decode_encode_append (i : Instr) (rest : List Byte) : decode (encode i ++ rest) = .ok i rest := by
  cases i with
  | hlt | ret => exact decode_of_count_zero (Opcode.count_eq _) rest
  | prn b | push b | pop b | call b | jmp b | jeq b | jne b => exact decode_of_count_one (Opcode.count_eq _) b rest
  | ldi b1 b2 | mul b1 b2 | add b1 b2 | cmp b1 b2 => exact decode_of_count_two (Opcode.count_eq _) b1 b2 rest

/-- Only an instruction's own encoding decodes to it: the opcode byte is compared whole, and the operand bytes taken
are those its count asks for (R80, R87). -/
theorem encode_append_of_decode {bytes rest : List Byte} {i : Instr} (h : decode bytes = .ok i rest) :
    encode i ++ rest = bytes := by
  cases bytes with
  | nil => cases h
  | cons op tail =>
    cases ho : Opcode.ofByte? op with
    | none => simp [decode_of_ofByte?_none ho] at h
    | some o =>
      obtain rfl := Opcode.byte_of_ofByte? ho
      simp only [decode, ho] at h
      split at h
      · next hc => cases h; simp [Opcode.encode_instr, hc]
      · next hc => cases h; simp [Opcode.encode_instr, hc]
      · next hc => cases h; simp [Opcode.encode_instr, hc]
      · cases h

/-- Settles O1: each number of operand bytes has its own equation of the decoder. -/
theorem decodeOfEncodeIsTheInstruction : Obligations.DecodeOfEncodeIsTheInstruction := decode_encode_append

/-- Settles O2, by the branches of the decoder that answer an instruction. -/
theorem decodedBytesAreTheEncoding : Obligations.DecodedBytesAreTheEncoding := fun _ _ _ => encode_append_of_decode

/-- Settles O4: five words are encodings; the last word's byte has no row, although its low bits are HLT's. -/
theorem writtenOutWordsDecode : Obligations.WrittenOutWordsDecode :=
  ⟨decode_encode_append .hlt [], decode_encode_append (.ldi 0 8) [], decode_encode_append (.mul 2 5) [],
    decode_encode_append (.push 7) [], decode_encode_append (.jeq 3) [], decode_of_ofByte?_none (by decide) []⟩

/-! ### The opcode map -/

/-- Finding the opcode of a byte is looking the byte up among the opcodes' bytes. -/
theorem Opcode.lookup_map_byte {α : Type} (row : Opcode → α) (b : Byte) (os : List Opcode) :
    (os.map fun o => (o.byte, row o)).lookup b = (os.find? fun o => o.byte == b).map row := by
  induction os with
  | nil => rfl
  | cons o os ih =>
    rw [List.map_cons, List.lookup_cons, List.find?_cons, BEq.comm (a := b)]
    cases o.byte == b with
    | true => rfl
    | false => exact ih

/-- Settles O3: the rows written out are those of the 13 opcodes, in the order dispatch tries them. -/
theorem dispatchIsTheOpcodeMap : Obligations.DispatchIsTheOpcodeMap :=
  fun b => (Opcode.lookup_map_byte (fun o => (o, o.count, o.format)) b Opcode.all).symm

end Sys2Proof

namespace Sys2Proof.Machine

/-! ### The bytes at `pc` run as their instruction -/

section Fetch

variable {s : State} {i : Instr}

/-- A Running state whose byte at `pc` dispatches runs the instruction found there, after its operand fetch (R110,
R115). -/
theorem step_of_ofByte?_some {o : Opcode} (hrun : s.run = .running) (ho : Opcode.ofByte? (s.byteAt s.pc) = some o) :
    step s = exec (s.instrAt o) (afterFetch (s.instrAt o) s) := by
  obtain ⟨hnone, -⟩ | ⟨o', i, ho', hi, e⟩ := fetchAndRun_cases s
  · simp [ho] at hnone
  · obtain rfl : o = o' := by simpa [ho] using ho'
    obtain rfl : i = s.instrAt o := by rw [hi, addrAdd_eq, addrAdd_eq]; rfl
    rw [step_running s hrun, e, State.noteOperandFetch_eq]

theorem State.FetchesBytes.head {b : Byte} {bs : List Byte} (h : s.FetchesBytes (b :: bs)) : s.byteAt s.pc = b :=
  (congrArg s.byteAt (BitVec.add_zero s.pc)).symm.trans (h 0 (Nat.succ_pos _))

/-- Where an instruction's encoding stands at `pc`, the operand fetch makes that instruction of it (R80, R115). -/
theorem State.FetchesBytes.instrAt_opcode (h : s.FetchesBytes (encode i)) : s.instrAt i.opcode = i := by
  cases i with
  | hlt | ret => rfl
  | prn b | push b | pop b | call b | jmp b | jeq b | jne b =>
    obtain rfl : s.byteAt (s.pc + 1) = b := h 1 (by simp [encode, Instr.operands])
    rfl
  | ldi b1 b2 | mul b1 b2 | add b1 b2 | cmp b1 b2 =>
    obtain rfl : s.byteAt (s.pc + 1) = b1 := h 1 (by simp [encode, Instr.operands])
    obtain rfl : s.byteAt (s.pc + 2) = b2 := h 2 (by simp [encode, Instr.operands])
    rfl

end Fetch

/-- Every instruction's encoding runs as it, ill-formed ones too (R80, R110). -/
theorem runsAs_encode (i : Instr) : RunsAs (encode i) i := by
  intro s hrun h
  have ho : Opcode.ofByte? (s.byteAt s.pc) = some i.opcode := by rw [h.head, Opcode.ofByte?_byte]
  rw [step_of_ofByte?_some hrun ho, h.instrAt_opcode]

/-- Settles O6: the bytes of each row are the encoding of its instruction. -/
theorem eachEncodingRunsAsItsInstruction : Obligations.EachEncodingRunsAsItsInstruction := fun b1 b2 =>
  ⟨runsAs_encode .hlt, runsAs_encode (.ldi b1 b2), runsAs_encode (.prn b1), runsAs_encode (.mul b1 b2),
    runsAs_encode (.add b1 b2), runsAs_encode (.cmp b1 b2), runsAs_encode (.push b1), runsAs_encode (.pop b1),
    runsAs_encode (.call b1), runsAs_encode .ret, runsAs_encode (.jmp b1), runsAs_encode (.jeq b1),
    runsAs_encode (.jne b1)⟩

/-! ### The operand check -/

section OperandCheck

variable {i : Instr} {s t : State}

theorem eight_le_of_one_operand {b : Byte} (h : [b].all regOperandOk = false) : 8 ≤ b.toNat := by
  simpa using h

theorem eight_le_of_two_operands {bA bB : Byte} (h : [bA, bB].all regOperandOk = false) :
    8 ≤ bA.toNat ∨ 8 ≤ bB.toNat := by
  simpa [imp_iff_not_or] using h

/-- An instruction with an illegal register byte enters Error before its handler reads or writes anything (R116,
R204). -/
theorem exec_of_ill_formed (s : State) (h : i.wellFormed = false) : exec i s = .next (ErrorAt .badRegister s) := by
  cases i with
  | hlt | ret => cases h
  | ldi b imm | prn b | push b | pop b | call b | jmp b | jeq b | jne b =>
    simp only [exec, execLdi, execPrn, execPush, execPop, execCall, execJmp, execJeq, execJne, branchIf]
    exact withReg_bad b (eight_le_of_one_operand h) s _
  | mul bA bB | add bA bB | cmp bA bB =>
    simp only [exec, execMul, execAdd, execCmp, aluToReg]
    exact withRegs_bad bA bB (eight_le_of_two_operands h) s _

/-- An instruction whose register bytes are legal halts or leaves the run state (R118, R119). -/
theorem run_of_exec_well_formed (hw : i.wellFormed = true) (h : exec i s = .next t) :
    t.run = s.run ∨ t.run = .halted := by
  obtain ⟨hill, -⟩ | he := execEffect_of_exec h
  · simp [hw] at hill
  · have hrun := he.run_eq
    split at hrun
    · exact .inr hrun
    · exact .inl hrun

end OperandCheck

/-- Settles O9: the operand check stops an ill-formed instruction, and no handler enters Error. -/
theorem badRegisterExactlyWhenIllFormed : Obligations.BadRegisterExactlyWhenIllFormed :=
  ⟨fun _ s => exec_of_ill_formed s, fun _ _ _ => run_of_exec_well_formed⟩

end Sys2Proof.Machine

namespace Sys2Proof.Machine

/-! ### The step in each run state -/

section StepForms

variable {s : State}

/-- In Halted and in Error the CPU has no step (R117; log 4). -/
theorem step_of_not_running (h : s.run ≠ .running) : step s = .refused .runEnded := by
  unfold step
  split
  · exact absurd ‹_› h
  · rfl
  · rfl

/-- A Running state whose byte at `pc` is no opcode enters Error before any operand is read (R112). -/
theorem step_of_ofByte?_none (hrun : s.run = .running) (ho : Opcode.ofByte? (s.byteAt s.pc) = none) :
    step s = .next (s.enterError .unknownOpcode) := by
  obtain ⟨-, e⟩ | ⟨o, _, ho', -, -⟩ := fetchAndRun_cases s
  · rw [step_running s hrun, e]
  · simp [ho] at ho'

/-- A run has ended exactly when it is no longer Running (R220). -/
theorem State.ended_iff : s.ended = true ↔ s.run ≠ .running := by
  unfold State.ended
  split <;> simp [*]

end StepForms

/-- Settles O10: the only answer there is the refusal. -/
theorem endedRunHasNoStep : Obligations.EndedRunHasNoStep :=
  fun _ h => ⟨fun _ => by simp [step_of_not_running h], fun _ => by simp [step_of_not_running h]⟩

/-- Settles O5: the three bytes decode to the instruction of the opcode at `pc`, which the step runs. -/
theorem stepRunsTheDecodedInstruction : Obligations.StepRunsTheDecodedInstruction := by
  intro s i rest hrun hd
  obtain ⟨o, ho, rfl⟩ := (s.decode_fetched i).mp ⟨rest, hd⟩
  exact step_of_ofByte?_some hrun ho

/-- A byte has no row exactly when it is the byte of none of the 13 opcodes (R87, R88). -/
theorem Opcode.ofByte?_eq_none_iff (b : Byte) : Opcode.ofByte? b = none ↔ b ∉ Opcode.all.map Opcode.byte := by
  simp [Opcode.ofByte?, List.find?_eq_none]

/-- Settles O8: dispatch fails exactly off the opcode map, and only such a step has the cause UnknownOpcode. -/
theorem unknownOpcodeEntersError : Obligations.UnknownOpcodeEntersError := by
  intro s hrun
  refine Iff.trans ⟨fun h => ?_, step_of_ofByte?_none hrun⟩ (Opcode.ofByte?_eq_none_iff _)
  exact (((stepEffect_of_step h).2.unknownOpcode_iff hrun s.pc).mp rfl).2

/-- Settles O32: the two entries into Error store the record alone, and an instruction's effect is no entry. -/
theorem errorsArePrecise : Obligations.ErrorsArePrecise := by
  intro s t a c h ht
  obtain ⟨hrun, h⟩ := stepEffect_of_step h
  cases h with
  | unknownOpcode | badRegister => obtain ⟨rfl, rfl⟩ := RunState.error.inj ht; rfl
  | runs ho he =>
    rw [he.run_of_fetched ho hrun] at ht
    split at ht <;> cases ht

/-! ### Every Running step has a meaning -/

section NeverRefused

variable {s : State} {r : Refusal}

theorem withReg_ne_refused {b : Byte} {k : Fin 8 → Result} (hk : ∀ i, k i ≠ .refused r) :
    withReg b s k ≠ .refused r := by
  obtain ⟨-, e⟩ | ⟨i, -, e⟩ := withReg_cases b s k
  · simp [e]
  · rw [e]; exact hk i

theorem readReg_ne_refused {q : Fin 8} {k : Byte → Result} (hk : ∀ v, k v ≠ .refused r) :
    readReg q s k ≠ .refused r := by
  unfold readReg
  split
  · exact hk _
  · nofun

theorem readFl_ne_refused {k : Byte → Result} (hk : ∀ f, k f ≠ .refused r) : readFl s k ≠ .refused r := by
  unfold readFl
  split
  · exact hk _
  · nofun

/-- No instruction is refused: the operand forms refuse nothing, and every handler ends in a next state (R208). -/
theorem exec_ne_refused (i : Instr) : exec i s ≠ .refused r := by
  cases i with
  | hlt | ret => nofun
  | ldi b imm | pop b =>
    simp only [exec, execLdi, execPop]
    exact withReg_ne_refused fun _ => nofun
  | prn b | jmp b | push b | call b =>
    simp only [exec, execPrn, execJmp, execPush, execCall]
    exact withReg_ne_refused fun _ => readReg_ne_refused fun _ => nofun
  | mul bA bB | add bA bB | cmp bA bB =>
    simp only [exec, execMul, execAdd, execCmp, aluToReg]
    exact withReg_ne_refused fun _ => withReg_ne_refused fun _ =>
      readReg_ne_refused fun _ => readReg_ne_refused fun _ => nofun
  | jeq b | jne b =>
    simp only [exec, execJeq, execJne, branchIf]
    refine withReg_ne_refused fun _ => readFl_ne_refused fun _ => ?_
    split
    · exact readReg_ne_refused fun _ => nofun
    · nofun

theorem step_ne_refused_of_running (hrun : s.run = .running) : step s ≠ .refused r := by
  cases ho : Opcode.ofByte? (s.byteAt s.pc) with
  | none => simp [step_of_ofByte?_none hrun ho]
  | some o => rw [step_of_ofByte?_some hrun ho]; exact exec_ne_refused _

end NeverRefused

/-- Settles O11: no Running step is refused, and an ended run has the one refusal. -/
theorem runningStepIsNeverRefused : Obligations.RunningStepIsNeverRefused := by
  intro s r h
  have hrun : s.run ≠ .running := fun hrun => step_ne_refused_of_running hrun h
  have hr : Refusal.runEnded = r := by simpa [step_of_not_running hrun] using h
  exact ⟨hrun, hr.symm⟩

/-- Where everything is written nothing can be blamed for a fault (R207). -/
theorem step_ne_fault_of_allWritten {s : State} (hs : s.AllWritten) (f : Fault) : step s ≠ .fault f := by
  intro h
  obtain ⟨hregs, hfl⟩ := hs
  obtain ⟨r, -, -, hr⟩ | ⟨-, hf⟩ := faultNamesSomethingUnwritten s f h
  · simp [hregs r] at hr
  · simp [hfl] at hf

/-- Settles O12: a Running step is not refused, and with everything written it does not fault. -/
theorem runningStepCompletes : Obligations.RunningStepCompletes := by
  intro s hrun hs
  cases h : step s with
  | next t => exact ⟨t, rfl⟩
  | fault f => exact absurd h (step_ne_fault_of_allWritten hs f)
  | refused r => exact absurd h (step_ne_refused_of_running hrun)

/-- Settles O37, by induction on the number of steps: a Running step leads to a legal state, and an ended run is
refused at once. -/
theorem legalRunsNeverFault : Obligations.LegalRunsNeverFault := by
  intro k
  induction k with
  | zero => exact fun s hs => .inl ⟨s, rfl, hs⟩
  | succ k ih =>
    intro s hs
    by_cases hrun : s.run = .running
    · obtain ⟨u, hu⟩ := runningStepCompletes s hrun hs.allWritten
      rw [runSteps_next k hu]
      refine (ih u (stepKeepsLegality s u hs hu)).imp_right fun ⟨href, j, t, hj, hrunj, hend⟩ => ?_
      exact ⟨href, j + 1, t, Nat.succ_lt_succ hj, (runSteps_next j hu).trans hrunj, hend⟩
    · exact .inr ⟨runSteps_refused k (step_of_not_running hrun), 0, s, k.succ_pos, rfl, State.ended_iff.mpr hrun⟩

/-! ### A step does not read the output or the notes -/

section OutAndNotes

variable {s : State} {o : List Byte} {w : Bool}

/-- An outcome without its output and its notes for `wrapped`. -/
abbrev dropOutAndNotes (t : State) : State := { t with out := [], wrapNoted := false }

/-- No instruction depends on the output or on what is noted (R121). -/
theorem exec_congr_outAndNotes (i : Instr) :
    mapNext dropOutAndNotes (exec i { s with out := o, wrapNoted := w }) = mapNext dropOutAndNotes (exec i s) := by
  cases i with
  | hlt | ret => rfl
  | ldi b imm | pop b =>
    simp only [exec, execLdi, execPop]
    exact mapNext_withReg_congr rfl fun _ => rfl
  | prn b | jmp b | push b | call b =>
    simp only [exec, execPrn, execJmp, execPush, execCall]
    exact mapNext_withReg_congr rfl fun _ => mapNext_readReg_congr rfl rfl
  | mul bA bB | add bA bB | cmp bA bB =>
    simp only [exec, execMul, execAdd, execCmp, aluToReg]
    exact mapNext_withReg_congr rfl fun _ => mapNext_withReg_congr rfl fun _ =>
      mapNext_readReg_congr rfl (mapNext_readReg_congr rfl rfl)
  | jeq b | jne b =>
    simp only [exec, execJeq, execJne, branchIf]
    refine mapNext_withReg_congr rfl fun _ => mapNext_readFl_congr rfl ?_
    split
    · exact mapNext_readReg_congr rfl rfl
    · rfl

end OutAndNotes

/-- Settles O33: the run state and the bytes at `pc` choose the step, and its instruction reads neither field. -/
theorem stepIgnoresOutputAndWrapped : Obligations.StepIgnoresOutputAndWrapped := by
  intro s o w
  by_cases hrun : s.run = .running
  · cases ho : Opcode.ofByte? (s.byteAt s.pc) with
    | none =>
      rw [step_of_ofByte?_none hrun ho, step_of_ofByte?_none (s := { s with out := o, wrapNoted := w }) hrun ho]
      rfl
    | some op =>
      rw [step_of_ofByte?_some hrun ho, step_of_ofByte?_some (s := { s with out := o, wrapNoted := w }) hrun ho]
      exact exec_congr_outAndNotes (s := afterFetch (s.instrAt op) s) (s.instrAt op)
  · rw [step_of_not_running hrun, step_of_not_running (s := { s with out := o, wrapNoted := w }) hrun]

/-! ### A jump to itself -/

section SelfJump

variable {s : State} {i : Instr}

/-- An operand fetch within address 255 notes nothing (R52, R115). -/
theorem afterFetch_of_le (h : s.pc.toNat + i.opcode.count ≤ 255) : afterFetch i s = s := by
  have hnote : decide (255 < s.pc.toNat + ((encode i).length - 1)) = false := by
    rw [encode_length_sub_one]; exact decide_eq_false (by omega)
  simp only [afterFetch, hnote, Bool.and_false, Bool.or_false]

/-- A JMP at `pc` whose register holds `pc` steps to the same state, where its operand is within address 255 (R183). -/
theorem step_of_self_jump {r : Fin 8} (hrun : s.run = .running) (hpc : s.pc.toNat < 255)
    (hop : s.byteAt s.pc = 0x54) (hr : Names (s.byteAt (s.pc + 1)) r) (hw : s.regWritten r = true)
    (hreg : s.reg r = s.pc) : step s = .next s := by
  have ho : Opcode.ofByte? (s.byteAt s.pc) = some .jmp := by rw [hop]; exact Opcode.ofByte?_byte .jmp
  have hfetch : afterFetch (s.instrAt .jmp) s = s :=
    afterFetch_of_le (by rw [State.opcode_instrAt, Opcode.count_eq]; exact hpc)
  calc step s
    _ = exec (.jmp (s.byteAt (s.pc + 1))) s := by rw [step_of_ofByte?_some hrun ho, hfetch]; rfl
    _ = .next (s.setPc s.pc) := by rw [exec_jmp s hr hw, hreg]
    _ = .next s := rfl

/-- A state that steps to itself stays over every number of steps. -/
theorem runSteps_of_step_self (h : step s = .next s) (k : Nat) : runSteps k s = .next s := by
  induction k with
  | zero => rfl
  | succ k ih => rw [runSteps_next k h, ih]

end SelfJump

/-- Settles O49: the jump steps to the same state. -/
theorem selfJumpRunsForever : Obligations.SelfJumpRunsForever :=
  fun _ _ hrun hpc hop hr hw hreg => runSteps_of_step_self (step_of_self_jump hrun hpc hop hr hw hreg)

/-! ### A placed fetch word -/

section FetchWord

/-- The address `k` after the next one (R9). -/
theorem addrAdd_one_add (a : Addr) (k : Nat) : addrAdd a 1 + BitVec.ofNat 8 k = a + BitVec.ofNat 8 (k + 1) := by
  rw [addrAdd_eq, BitVec.add_assoc, ← BitVec.ofNat_add, Nat.add_comm 1 k]

/-- Fewer than 256 steps on from the next address do not come back to the first (R52). -/
theorem ne_addrAdd_one_add (a : Addr) {k : Nat} (hk : k < 255) : a ≠ addrAdd a 1 + BitVec.ofNat 8 k := by
  rw [addrAdd_one_add, Ne, left_eq_add, ← BitVec.toNat_inj, BitVec.toNat_ofNat]
  simp only [BitVec.ofNat_eq_ofNat, BitVec.toNat_zero]
  omega

/-- Writing bytes from `a` on leaves every byte outside their addresses (R51). -/
theorem Memory.read_writeBytes_of_ne {m : Memory} (hm : m.wf) {a c : Addr} {bs : List Byte}
    (hc : ∀ k < bs.length, c ≠ a + BitVec.ofNat 8 k) : (m.writeBytes a bs).read c = m.read c := by
  induction bs generalizing m a with
  | nil => rfl
  | cons b bs ih =>
    have hhead : c ≠ a := by simpa using hc 0 (Nat.succ_pos _)
    have htail : ∀ k < bs.length, c ≠ addrAdd a 1 + BitVec.ofNat 8 k := fun k hk => by
      rw [addrAdd_one_add]; exact hc (k + 1) (Nat.succ_lt_succ hk)
    rw [Memory.writeBytes, ih (Memory.write_wf m hm a b) htail, Memory.read_write m hm.1, if_neg hhead]

/-- At most 256 bytes written from `a` on stand at `a`, `a + 1`, ...: no address comes twice (R50, R51). -/
theorem Memory.read_writeBytes {m : Memory} (hm : m.wf) {a : Addr} {bs : List Byte} (hlen : bs.length ≤ 256)
    (k : Nat) (hk : k < bs.length) : (m.writeBytes a bs).read (a + BitVec.ofNat 8 k) = bs[k] := by
  induction bs generalizing m a k with
  | nil => cases hk
  | cons b bs ih =>
    rw [List.length_cons] at hlen
    have hm' : (m.write a b).wf := Memory.write_wf m hm a b
    cases k with
    | zero =>
      have hne : ∀ j < bs.length, a ≠ addrAdd a 1 + BitVec.ofNat 8 j := fun j hj =>
        ne_addrAdd_one_add a (by omega)
      rw [BitVec.add_zero, Memory.writeBytes, Memory.read_writeBytes_of_ne hm' hne, Memory.read_write m hm.1,
        if_pos rfl]
      rfl
    | succ k =>
      rw [← addrAdd_one_add]
      exact ih hm' (Nat.le_of_succ_le hlen) k (Nat.lt_of_succ_lt_succ hk)

/-- The placed word's bytes stand where the next step fetches (log 6). -/
theorem State.withFetchWord_fetchesBytes {s : State} (hm : s.mem.wf) (nbits w : Nat) :
    (s.withFetchWord nbits w).FetchesBytes (tableWordBytes nbits w) :=
  Memory.read_writeBytes hm (by simp [tableWordBytes, maxInstrBytes])

theorem State.FetchesBytes.of_append {s : State} {bs rest : List Byte} (h : s.FetchesBytes (bs ++ rest)) :
    s.FetchesBytes bs := fun k hk => by
  rw [h k (by rw [List.length_append]; omega), List.getElem_append_left hk]

/-- A word that decodes to an instruction is that instruction's encoding and what follows it (R80, R87). -/
theorem exists_encode_append_of_decodeTableWord {nbits w : Nat} {i : Instr} (h : decodeTableWord nbits w = some i) :
    ∃ rest, encode i ++ rest = tableWordBytes nbits w := by
  unfold decodeTableWord at h
  split at h
  · next i' rest hd => exact ⟨rest, encode_append_of_decode (Option.some.inj h ▸ hd)⟩
  · cases h
  · cases h

end FetchWord

/-- Settles O7: the word's bytes begin with the encoding of its instruction, and an encoding at `pc` runs. -/
theorem fetchWordRunsNext : Obligations.FetchWordRunsNext := by
  intro s nbits w i hm hi
  obtain ⟨rest, hbytes⟩ := exists_encode_append_of_decodeTableWord hi
  have hfetch : (s.withFetchWord nbits w).FetchesBytes (encode i ++ rest) :=
    hbytes ▸ State.withFetchWord_fetchesBytes hm nbits w
  exact runsAs_encode i (s.withFetchWord nbits w) rfl hfetch.of_append

end Sys2Proof.Machine

namespace Sys2Proof.Machine

/-! ### Frames of a register write and of the generic advance -/

section Frames

variable {s t : State} {b : Byte} {r : Fin 8}

/-- The generic advance of a state whose `pc` and notes are still those of `s` (R24, R113). -/
theorem advancedBy_advance (hpc : t.pc = s.pc) (hn : t.wrapNoted = s.wrapNoted) (n : Nat) :
    AdvancedBy n s (t.advance n) := by
  constructor
  · rw [State.advance_pc, hpc, addrAdd_toNat]
  · rw [State.advance_wrapNoted, hn, hpc, sumWraps_eq]

/-- A register write leaves every other register and its mark (R10, R32). -/
theorem State.writeReg_keepsRegsExcept (s : State) (r : Fin 8) (v : Byte) :
    KeepsRegsExcept (· = r) s (s.writeReg r v) := fun q hq =>
  ⟨State.reg_writeReg_of_ne s r q v hq, by rw [State.regWritten_writeReg, decide_eq_false hq, Bool.false_or]⟩

/-- A checked instruction that begins by reading its register faults where that register is unwritten (R32, R207). -/
theorem withReg_readReg_unwritten {k : Byte → Result} (hb : Names b r) (hw : t.regWritten r = false) :
    (withReg b s fun i => readReg i t k) = .fault (.unwrittenRead (.reg r)) := by
  rw [withReg_ok b r hb, readReg_unwritten r t hw]

end Frames

/-! ### Halt, load immediate, print -/

/-- Settles O14: the halt changes only the run state, the advance only `pc` and the notes. -/
theorem hltHaltsAndAdvances : Obligations.HltHaltsAndAdvances := fun s =>
  ⟨s.halt.advance 1, exec_hlt s, rfl, advancedBy_advance rfl rfl 1, fun _ _ => ⟨rfl, rfl⟩, ⟨rfl, rfl⟩, fun _ => rfl,
    rfl⟩

/-- Settles O15: one register write, then the advance, which keeps every register. -/
theorem ldiLoadsTheImmediate : Obligations.LdiLoadsTheImmediate := fun _ imm r s hb =>
  ⟨(s.writeReg r imm).advance 3, exec_ldi s hb imm, State.reg_writeReg_self s r imm,
    State.regWritten_writeReg_self s r imm, advancedBy_advance rfl rfl 3, s.writeReg_keepsRegsExcept r imm,
    ⟨rfl, rfl⟩, fun _ => rfl, ⟨rfl, rfl⟩⟩

/-- Settles O16, by the register's written mark: the read faults, or its byte is output before the advance. -/
theorem prnAppendsTheRegister : Obligations.PrnAppendsTheRegister := by
  intro b r s hb
  constructor
  · intro hw
    exact withReg_readReg_unwritten hb hw
  · intro hw
    exact ⟨(s.emit (s.reg r)).advance 2, exec_prn s hb hw, rfl, advancedBy_advance rfl rfl 2, fun _ _ => ⟨rfl, rfl⟩,
      ⟨rfl, rfl⟩, fun _ => rfl, rfl⟩

/-- Settles O44: LDI leaves its register written and holding the immediate, so PRN outputs it. -/
theorem ldiThenPrnOutputsTheImmediate : Obligations.LdiThenPrnOutputsTheImmediate := by
  intro b v s hb
  have hr : Names b ⟨b.toNat, hb⟩ := rfl
  obtain ⟨t, hldi, hreg, hw, -, -, -, -, hout, -⟩ := ldiLoadsTheImmediate b v _ s hr
  obtain ⟨u, hprn, hemit, -⟩ := (prnAppendsTheRegister b _ t hr).2 hw
  exact ⟨t, u, hldi, hprn, by rw [hemit, hout, hreg]⟩

end Sys2Proof.Machine

namespace Sys2Proof.Machine

/-! ### The ALU's results -/

section AluResults

variable (p q : Byte)

/-- The product is exact modulo 256 (R151, R152). -/
theorem aluMul_toNat : (aluMul p q).toNat = (p.toNat * q.toNat) % 256 := by
  rw [aluMul, ← Int.natCast_mul, wrap8_natCast_toNat]

/-- The sum is exact modulo 256 (R151, R153). -/
theorem aluAdd_toNat : (aluAdd p q).toNat = (p.toNat + q.toNat) % 256 := by
  rw [aluAdd, ← Int.natCast_add, wrap8_natCast_toNat]

variable {p q}

theorem compareFlags_of_eq (h : p.toNat = q.toNat) : compareFlags p q = 0x01 :=
  if_pos (BitVec.eq_of_toNat_eq h)

theorem compareFlags_of_gt (h : p.toNat > q.toNat) : compareFlags p q = 0x02 := by
  have hne : p ≠ q := by rintro rfl; omega
  rw [compareFlags, if_neg hne, if_pos h]

theorem compareFlags_of_lt (h : p.toNat < q.toNat) : compareFlags p q = 0x04 := by
  have hne : p ≠ q := by rintro rfl; omega
  rw [compareFlags, if_neg hne, if_neg (Nat.lt_asymm h)]

/-- E says that CMP's operands are equal (R27). -/
theorem flagE_compareFlags_iff : flagE (compareFlags p q) = true ↔ p.toNat = q.toNat := by
  rw [flagE_compareFlags, decide_eq_true_iff, BitVec.toNat_inj]

/-- G says that the first operand of CMP is the greater, unsigned (R27). -/
theorem flagG_compareFlags_iff : flagG (compareFlags p q) = true ↔ p.toNat > q.toNat := by
  obtain h | h | h := lt_trichotomy p.toNat q.toNat
  · rw [compareFlags_of_lt h]; exact iff_of_false (by decide) (by omega)
  · rw [compareFlags_of_eq h]; exact iff_of_false (by decide) (by omega)
  · rw [compareFlags_of_gt h]; exact iff_of_true (by decide) h

/-- L says that the first operand of CMP is the less, unsigned (R27). -/
theorem flagL_compareFlags_iff : flagL (compareFlags p q) = true ↔ p.toNat < q.toNat := by
  obtain h | h | h := lt_trichotomy p.toNat q.toNat
  · rw [compareFlags_of_lt h]; exact iff_of_true (by decide) h
  · rw [compareFlags_of_eq h]; exact iff_of_false (by decide) (by omega)
  · rw [compareFlags_of_gt h]; exact iff_of_false (by decide) (by omega)

end AluResults

/-! ### Multiply, add, compare -/

/-- The frame of an instruction that writes one register and advances by 3 (R113). -/
theorem writeReg_advance_frame (s : State) (r : Fin 8) (v : Byte) :
    AdvancedBy 3 s ((s.writeReg r v).advance 3) ∧ KeepsRegsExcept (· = r) s ((s.writeReg r v).advance 3) ∧
      ((s.writeReg r v).advance 3).regWritten r = true ∧ KeepsFlags s ((s.writeReg r v).advance 3) ∧
      KeepsMemory s ((s.writeReg r v).advance 3) ∧ KeepsOutAndRun s ((s.writeReg r v).advance 3) :=
  ⟨advancedBy_advance rfl rfl 3, s.writeReg_keepsRegsExcept r v, s.regWritten_writeReg_self r v, ⟨rfl, rfl⟩,
    fun _ => rfl, ⟨rfl, rfl⟩⟩

/-- Settles O17: both write the ALU's result to one register and share their frame. -/
theorem mulAndAddWriteModulo256 : Obligations.MulAndAddWriteModulo256 := by
  intro bA bB rA rB s hA hB wA wB
  constructor
  · refine ⟨_, exec_mul s hA hB wA wB, ?_, writeReg_advance_frame s rA _⟩
    rw [State.reg_advance, State.reg_writeReg_self, aluMul_toNat]
  · refine ⟨_, exec_add s hA hB wA wB, ?_, writeReg_advance_frame s rA _⟩
    rw [State.reg_advance, State.reg_writeReg_self, aluAdd_toNat]

/-- Settles O18: `fl` is written with CMP's byte for the order of the operands, and the advance keeps it. -/
theorem cmpWritesTheFlags : Obligations.CmpWritesTheFlags := fun _ _ _ _ s hA hB wA wB =>
  ⟨_, exec_cmp s hA hB wA wB, rfl, compareFlags_of_eq, compareFlags_of_gt, compareFlags_of_lt,
    advancedBy_advance rfl rfl 3, fun _ _ => ⟨rfl, rfl⟩, fun _ => rfl, ⟨rfl, rfl⟩⟩

/-- What is kept modulo 256 differs from the exact number by a multiple of 256 (R151). -/
theorem exists_eq_mul_add_of_eq_mod {m n : Nat} (h : m = n % 256) : ∃ k, n = 256 * k + m :=
  ⟨n / 256, by rw [h, Nat.div_add_mod]⟩

/-- Settles O19: the results modulo 256 leave the quotient as the lost overflow, and each flag of CMP's byte says its
unsigned relation. -/
theorem aluIsUnsignedModulo256 : Obligations.AluIsUnsignedModulo256 := by
  intro bA bB rA rB s hA hB wA wB
  obtain ⟨⟨tm, hmul, hprod, hpcm, hregsm, hwm, hflm, hmemm, houtm⟩,
    ⟨ta, hadd, hsum, hpca, hregsa, hwa, hfla, hmema, houta⟩⟩ := mulAndAddWriteModulo256 bA bB rA rB s hA hB wA wB
  exact ⟨tm, ta, _, hmul, hadd, exec_cmp s hA hB wA wB, exists_eq_mul_add_of_eq_mod hprod,
    exists_eq_mul_add_of_eq_mod hsum, hpcm, hflm, hregsm, hwm, hmemm, houtm,
    hpca, hfla, hregsa, hwa, hmema, houta, flagE_compareFlags_iff, flagG_compareFlags_iff, flagL_compareFlags_iff⟩

/-- Reading two registers of which one is unwritten faults on the first that is, whatever would follow (R32, R207). -/
theorem exists_readRegs_unwritten {s : State} {rA rB : Fin 8}
    (h : s.regWritten rA = false ∨ s.regWritten rB = false) :
    ∃ r : Fin 8, (r = rA ∨ r = rB) ∧ s.regWritten r = false ∧
      ∀ k, readRegs rA rB s k = .fault (.unwrittenRead (.reg r)) := by
  cases hA : s.regWritten rA with
  | false => exact ⟨rA, .inl rfl, hA, fun k => readReg_unwritten rA s hA _⟩
  | true =>
    have hB : s.regWritten rB = false := h.resolve_left (by simp [hA])
    exact ⟨rB, .inr rfl, hB, fun k => by rw [readRegs, readReg_ok rA s hA, readReg_unwritten rB s hB]⟩

/-- Settles O20: each of the three checks its operands and reads them both before it does anything else. -/
theorem aluFaultsOnUnwrittenOperand : Obligations.AluFaultsOnUnwrittenOperand := by
  intro bA bB rA rB s hA hB h
  obtain ⟨r, hr, hw, hfault⟩ := exists_readRegs_unwritten h
  have hread : ∀ k : Fin 8 → Byte → Byte → Result,
      (withRegs bA bB s fun i j => readRegs i j s (k i)) = .fault (.unwrittenRead (.reg r)) := fun k => by
    rw [withRegs_ok bA bB rA rB hA hB, hfault]
  exact ⟨r, hr, hw, hread fun i p q => .next ((s.writeReg i (aluMul p q)).advance 3),
    hread fun i p q => .next ((s.writeReg i (aluAdd p q)).advance 3),
    hread fun _ p q => .next ((s.writeFl (compareFlags p q)).advance 3)⟩

/-! ### Compare, then branch -/

/-- Two address sums in a row are one (R9). -/
theorem addrAdd_addrAdd (a : Addr) (m n : Nat) : addrAdd (addrAdd a m) n = addrAdd a (m + n) := by
  simp only [addrAdd_eq, BitVec.add_assoc, BitVec.ofNat_add]

/-- Where a branch goes when `fl` and its register are written (R184, R185). -/
theorem exists_branchIf_next {s : State} {b : Byte} {r : Fin 8} (taken : Byte → Bool) (hb : Names b r)
    (hf : s.flWritten = true) (hw : s.regWritten r = true) :
    ∃ t, branchIf taken b s = .next t ∧ t.pc = if taken s.fl then s.reg r else addrAdd s.pc 2 := by
  cases ht : taken s.fl with
  | true => exact ⟨_, branchIf_taken s taken hb hf ht hw, rfl⟩
  | false => exact ⟨_, branchIf_notTaken s taken hb hf ht, rfl⟩

/-- A branch after a CMP of written registers, whose condition sees the flags byte of their comparison. -/
theorem exists_branchIf_after_cmp {s : State} {b : Byte} {r : Fin 8} (taken : Byte → Bool) (hb : Names b r)
    (hw : s.regWritten r = true) (p q : Byte) :
    ∃ t, branchIf taken b ((s.writeFl (compareFlags p q)).advance 3) = .next t ∧
      t.pc = if taken (compareFlags p q) then s.reg r else addrAdd s.pc 5 := by
  obtain ⟨t, ht, hpc⟩ := exists_branchIf_next (s := (s.writeFl (compareFlags p q)).advance 3) taken hb rfl hw
  exact ⟨t, ht, by rw [hpc, State.advance_pc, addrAdd_addrAdd]; rfl⟩

/-- Settles O47, by whether the operands are equal, which is what E says after the CMP. -/
theorem compareThenBranch : Obligations.CompareThenBranch := by
  intro bA bB b rA rB r s hA hB hb wA wB hw
  obtain ⟨u, hjeq, hu⟩ := exists_branchIf_after_cmp flagE hb hw (s.reg rA) (s.reg rB)
  obtain ⟨v, hjne, hv⟩ := exists_branchIf_after_cmp (fun f => !flagE f) hb hw (s.reg rA) (s.reg rB)
  refine ⟨_, u, v, exec_cmp s hA hB wA wB, hjeq, hjne, fun heq => ?_, fun hne => ?_⟩
  · have hE : flagE (compareFlags (s.reg rA) (s.reg rB)) = true := by simp [flagE_compareFlags, heq]
    simp [hu, hv, hE, addrAdd_toNat]
  · have hE : flagE (compareFlags (s.reg rA) (s.reg rB)) = false := by simp [flagE_compareFlags, hne]
    simp [hu, hv, hE, addrAdd_toNat]

end Sys2Proof.Machine

namespace Sys2Proof.Machine

/-! ### The stack pointer's moves -/

/-- The decremented SP, as a number: the difference wraps from 0 to 255 (R22, R170). -/
theorem State.sp_decSp_toNat (s : State) : s.decSp.sp.toNat = (s.sp.toNat + 255) % 256 := by
  rw [State.sp_decSp, wrap8_toNat]; omega

/-- The incremented SP, as a number: the sum wraps from 255 to 0 (R22, R170). -/
theorem State.sp_incSp_toNat (s : State) : s.incSp.sp.toNat = (s.sp.toNat + 1) % 256 := by
  rw [State.sp_incSp, wrap8_toNat]; omega

/-- The decrement reaches no register but SP. -/
theorem State.decSp_keepsRegsExcept (s : State) : KeepsRegsExcept (· = 7) s s.decSp :=
  s.writeReg_keepsRegsExcept spIndex _

/-- The increment reaches no register but SP. -/
theorem State.incSp_keepsRegsExcept (s : State) : KeepsRegsExcept (· = 7) s s.incSp :=
  s.writeReg_keepsRegsExcept spIndex _

/-- The frame of two updates in a row leaves out what either may change. -/
theorem KeepsRegsExcept.trans {d e : Fin 8 → Prop} {s t u : State} (hst : KeepsRegsExcept d s t)
    (htu : KeepsRegsExcept e t u) : KeepsRegsExcept (fun q => d q ∨ e q) s u := fun q hq => by
  obtain ⟨hd, he⟩ := not_or.mp hq
  obtain ⟨hreg, hw⟩ := hst q hd
  obtain ⟨hreg', hw'⟩ := htu q he
  exact ⟨hreg'.trans hreg, hw'.trans hw⟩

/-! ### Push and pop -/

/-- Settles O21, by the register's written mark: the read faults, or its byte is stored at the decremented SP, and it is
read after the decrement. -/
theorem pushStoresBelowTheStackPointer : Obligations.PushStoresBelowTheStackPointer := by
  intro b r s hb hm
  constructor
  · intro hw
    exact withReg_readReg_unwritten (t := s.decSp) hb hw
  · intro hw
    have hpush := exec_push s hb hw
    refine ⟨_, hpush, rfl, s.sp_decSp_toNat, ?_, State.storeByte_keepsMemoryExcept (s := s.decSp) hm _ _,
      advancedBy_advance rfl rfl 2, s.decSp_keepsRegsExcept, ⟨rfl, rfl⟩, ⟨rfl, rfl⟩⟩
    exact (byteAt_sp_of_exec_push hb hm hpush).trans (s.reg_decSp r)

/-- Settles O22: POP writes the register and then increments whatever SP holds, so for R7 the byte it loaded. -/
theorem popLoadsTheTopOfTheStack : Obligations.PopLoadsTheTopOfTheStack := by
  intro b r s hb
  have hsp := s.sp_writeReg r (s.byteAt s.sp)
  refine ⟨_, exec_pop s hb, fun hr => ⟨?_, ?_⟩, fun hr => ?_, s.regWritten_writeReg_self r (s.byteAt s.sp),
    advancedBy_advance rfl rfl 2, (s.writeReg_keepsRegsExcept r _).trans (State.incSp_keepsRegsExcept _),
    ⟨rfl, rfl⟩, fun _ => rfl, ⟨rfl, rfl⟩⟩
  · rw [State.reg_advance, State.reg_incSp_of_ne _ r hr, State.reg_writeReg_self]
  · rw [State.sp_advance, State.sp_incSp_toNat, hsp, if_neg hr]
  · rw [State.sp_advance, State.sp_incSp_toNat, hsp, if_pos hr]

/-- Settles O45: POP loads from the SP that PUSH left, where PUSH stored its byte, and undoes the decrement. -/
theorem pushThenPopCopies : Obligations.PushThenPopCopies := by
  intro b c r q s hb hc hq hm hw
  obtain ⟨t, hpush, hsp, hspNat, hbyte, -⟩ := (pushStoresBelowTheStackPointer b r s hb hm).2 hw
  obtain ⟨u, hpop, hload, -⟩ := popLoadsTheTopOfTheStack c q t hc
  obtain ⟨hreg, hspu⟩ := hload hq
  rw [hsp, hbyte] at hreg
  refine ⟨t, u, hpush, hpop, BitVec.eq_of_toNat_eq ?_, fun hr => ?_, fun hr => ?_⟩
  · have hlt := s.sp.isLt
    omega
  · rw [hreg, if_neg hr]
  · rw [hreg, if_pos hr, ← hsp, hspNat]

end Sys2Proof.Machine

namespace Sys2Proof.Machine

/-! ### Where a control transfer leaves the machine -/

section Transfers

variable {s : State} {b : Byte} {r : Fin 8}

/-- A jump sets `pc` and leaves everything else (R25, R114). -/
theorem State.setPc_frame (s : State) (target : Addr) :
    JumpedTo target s (s.setPc target) ∧ KeepsRegs s (s.setPc target) ∧ KeepsFlags s (s.setPc target) ∧
      KeepsMemory s (s.setPc target) ∧ KeepsOutAndRun s (s.setPc target) :=
  ⟨⟨rfl, rfl⟩, fun _ _ => ⟨rfl, rfl⟩, ⟨rfl, rfl⟩, fun _ => rfl, ⟨rfl, rfl⟩⟩

/-- The generic advance moves `pc`, notes a wrap and leaves everything else (R52, R113). -/
theorem State.advance_frame (s : State) (n : Nat) :
    AdvancedBy n s (s.advance n) ∧ KeepsRegs s (s.advance n) ∧ KeepsFlags s (s.advance n) ∧
      KeepsMemory s (s.advance n) ∧ KeepsOutAndRun s (s.advance n) :=
  ⟨advancedBy_advance rfl rfl n, fun _ _ => ⟨rfl, rfl⟩, ⟨rfl, rfl⟩, fun _ => rfl, ⟨rfl, rfl⟩⟩

/-- JNE's condition is the negation of bit 0 of `fl` (R27, R185). -/
theorem not_flagE_of_bit {f : Byte} {v : Bool} (h : f.getLsbD 0 = v) : (!flagE f) = !v := congrArg (!·) h

/-- JEQ and JNE read `fl` before anything else, so they fault on it whatever their register holds (R207, D4). -/
theorem branchIf_flUnwritten (taken : Byte → Bool) (hb : Names b r) (hf : s.flWritten = false) :
    branchIf taken b s = .fault (.unwrittenRead .fl) := by
  rw [branchIf, withReg_ok b r hb, readFl_unwritten s hf]

/-- A taken branch reads its register and faults where that is unwritten (R207, D23). -/
theorem branchIf_taken_unwritten (taken : Byte → Bool) (hb : Names b r) (hf : s.flWritten = true)
    (ht : taken s.fl = true) (hw : s.regWritten r = false) :
    branchIf taken b s = .fault (.unwrittenRead (.reg r)) := by
  rw [branchIf, withReg_ok b r hb, readFl_ok s hf, if_pos ht, readReg_unwritten r s hw]

end Transfers

/-! ### Call and return -/

/-- Settles O23, by the register's written mark: the read faults, or `pc + 2` is stored at the decremented SP and the
register, read after the decrement, is the target. -/
theorem callPushesTheReturnAddress : Obligations.CallPushesTheReturnAddress := by
  intro b r s hb hm
  constructor
  · intro hw
    exact withReg_readReg_unwritten (t := (s.noteSum s.pc 2).decSp.storeByte s.decSp.sp (addrAdd s.pc 2)) hb hw
  · intro hw
    refine ⟨_, exec_call s hb hw, s.reg_decSp r, rfl, s.sp_decSp_toNat, ?_,
      State.storeByte_keepsMemoryExcept (s := (s.noteSum s.pc 2).decSp) hm _ _, rfl, s.decSp_keepsRegsExcept,
      ⟨rfl, rfl⟩, ⟨rfl, rfl⟩⟩
    rw [State.byteAt_setPc, State.byteAt_storeByte (s.noteSum s.pc 2).decSp hm, if_pos rfl, addrAdd_toNat]

/-- Settles O24: the jump to the byte at SP keeps every register, and the increment reaches SP alone. -/
theorem retPopsTheProgramCounter : Obligations.RetPopsTheProgramCounter := fun s =>
  ⟨_, exec_ret s, ⟨rfl, rfl⟩, s.sp_incSp_toNat, s.incSp_keepsRegsExcept, ⟨rfl, rfl⟩, fun _ => rfl, ⟨rfl, rfl⟩⟩

/-- Settles O46: RET jumps to the byte at the SP CALL left, where CALL stored `pc + 2`, and undoes the decrement. -/
theorem callThenRetReturns : Obligations.CallThenRetReturns := by
  intro b r s hb hm hw
  obtain ⟨t, hcall, -, hsp, hspNat, hbyte, -⟩ := (callPushesTheReturnAddress b r s hb hm).2 hw
  obtain ⟨u, hret, ⟨hpc, -⟩, hspu, -⟩ := retPopsTheProgramCounter t
  refine ⟨t, u, hcall, hret, ?_, BitVec.eq_of_toNat_eq ?_⟩
  · rw [hpc, hsp, hbyte]
  · have hlt := s.sp.isLt
    omega

/-! ### Jump and branch -/

/-- Settles O25, by the register's written mark: the read faults, or its byte is the target. -/
theorem jmpJumpsToTheRegister : Obligations.JmpJumpsToTheRegister := by
  intro b r s hb
  constructor
  · intro hw
    exact withReg_readReg_unwritten hb hw
  · intro hw
    exact ⟨_, exec_jmp s hb hw, s.setPc_frame (s.reg r)⟩

/-- Settles O26: bit 0 is E, on which JEQ is taken and JNE is not; a taken branch is a jump, the other the advance. -/
theorem branchesFollowTheEqualFlag : Obligations.BranchesFollowTheEqualFlag := by
  intro b r s hb hf
  refine ⟨fun hE hw => ?_, fun hE => ?_, fun hE hw => ?_, fun hE => ?_⟩
  · exact ⟨_, branchIf_taken s flagE hb hf hE hw, s.setPc_frame (s.reg r)⟩
  · exact ⟨_, branchIf_notTaken s flagE hb hf hE, s.advance_frame 2⟩
  · exact ⟨_, branchIf_taken s (fun f => !flagE f) hb hf (not_flagE_of_bit hE) hw, s.setPc_frame (s.reg r)⟩
  · exact ⟨_, branchIf_notTaken s (fun f => !flagE f) hb hf (not_flagE_of_bit hE), s.advance_frame 2⟩

/-- Settles O27: `fl` is read first, and the register only where the branch is taken, JEQ on E and JNE without it. -/
theorem branchesFaultOnUnwritten : Obligations.BranchesFaultOnUnwritten := by
  intro b r s hb
  constructor
  · intro hf
    exact ⟨branchIf_flUnwritten flagE hb hf, branchIf_flUnwritten (fun f => !flagE f) hb hf⟩
  · intro hf hw
    exact ⟨fun hE => branchIf_taken_unwritten flagE hb hf hE hw,
      fun hE => branchIf_taken_unwritten (fun f => !flagE f) hb hf (not_flagE_of_bit hE) hw⟩

end Sys2Proof.Machine

namespace Sys2Proof.Machine

/-! ### The load port -/

/-- A load writes the image's bytes one address after another (R51, R214). -/
theorem Memory.loadFrom_eq_writeBytes (m : Memory) (i : Nat) (image : List Nat) :
    m.loadFrom i image = m.writeBytes (BitVec.ofNat 8 i) (image.map (BitVec.ofNat 8)) := by
  induction image generalizing m i with
  | nil => rfl
  | cons v vs ih =>
    rw [Memory.loadFrom, ih, List.map_cons, Memory.writeBytes, addrAdd_eq, ← BitVec.ofNat_add]

/-- An address past the end of the image keeps its byte (R214). -/
theorem Memory.read_loadFrom_zero_of_le {m : Memory} (hm : m.wf) {image : List Nat} {a : Addr}
    (ha : image.length ≤ a.toNat) : (m.loadFrom 0 image).read a = m.read a := by
  rw [Memory.loadFrom_eq_writeBytes]
  refine Memory.read_writeBytes_of_ne hm fun k hk hak => ?_
  have hmod : a.toNat = k % 256 := by rw [hak, BitVec.zero_add, BitVec.toNat_ofNat]
  rw [List.length_map] at hk
  omega

/-- An address within the image holds the image's byte (R214). -/
theorem Memory.read_loadFrom_zero_of_lt {m : Memory} (hm : m.wf) {image : List Nat} (hlen : image.length ≤ 256)
    {a : Addr} (ha : a.toNat < image.length) : (m.loadFrom 0 image).read a = BitVec.ofNat 8 image[a.toNat] := by
  have hread := Memory.read_writeBytes hm (a := 0#8) (bs := image.map (BitVec.ofNat 8)) (by simpa using hlen) a.toNat
    (by simpa using ha)
  rwa [BitVec.ofNat_toNat, BitVec.setWidth_eq, BitVec.zero_add, List.getElem_map,
    ← Memory.loadFrom_eq_writeBytes] at hread

/-- Zeroed memory after a load, as numbers: the image, then zeros (R38, R214). -/
theorem Memory.read_loadFrom_nil_toNat {image : List Nat} (h : imageOk image) (a : Addr) :
    ((Memory.loadFrom [] 0 image).read a).toNat = image.getD a.toNat 0 := by
  have hnil : Memory.wf [] := State.reset_mem_wf
  obtain ⟨hlen, hbyte⟩ := h
  by_cases ha : a.toNat < image.length
  · rw [Memory.read_loadFrom_zero_of_lt hnil hlen ha, List.getD_eq_getElem _ _ ha, BitVec.toNat_ofNat,
      Nat.mod_eq_of_lt (hbyte _ (List.getElem_mem ha))]
  · rw [Memory.read_loadFrom_zero_of_le hnil (Nat.le_of_not_lt ha), List.getD_eq_default _ _ (Nat.le_of_not_lt ha)]
    rfl

/-- Settles O40: an admitted image is written over zeroed memory from address 0 on; any other has no boot state. -/
theorem loadPlacesTheImage : Obligations.LoadPlacesTheImage := fun image =>
  ⟨fun h => ⟨{ State.reset with mem := Memory.loadFrom [] 0 image }, if_pos h, rfl,
    Memory.read_loadFrom_nil_toNat h⟩, fun h => if_neg h⟩

/-! ### The trace port -/

section Trace

variable {s t : State} (e : Bool) (k : Nat)

theorem tracedRun_next (h : step s = .next t) :
    tracedRun e (k + 1) s = (tracePort e s ++ (tracedRun e k t).1, (tracedRun e k t).2) := by
  rw [tracedRun, h]

theorem tracedRun_fault {f : Fault} (h : step s = .fault f) :
    tracedRun e (k + 1) s = (tracePort e s, .fault f) := by
  rw [tracedRun, h]

theorem tracedRun_refused {r : Refusal} (h : step s = .refused r) :
    tracedRun e (k + 1) s = (tracePort e s, .refused r) := by
  rw [tracedRun, h]

/-- A disconnected or disabled port is silent (R219). -/
@[simp] theorem tracePort_false (s : State) : tracePort false s = [] := rfl

/-- An enabled port emits the state's record unless the run has ended (R117, R219; log 9). -/
theorem tracePort_true (s : State) : tracePort true s = if s.ended then [] else [traceRecord s] := by
  cases h : s.ended <;> simp [tracePort, h]

/-- A state that has a step is Running, so an enabled port emits its record (R117, R219). -/
theorem tracePort_true_of_step (h : step s = .next t) : tracePort true s = [traceRecord s] := by
  have hrun : ¬ s.ended = true := fun hend => State.ended_iff.mp hend (run_of_step_next h).1
  rw [tracePort_true, if_neg hrun]

/-- One step emits what the port shows of its state, whatever the outcome (log 9). -/
theorem tracedRun_one_fst (s : State) : (tracedRun e 1 s).1 = tracePort e s := by
  cases h : step s with
  | next t => rw [tracedRun_next e 0 h]; exact List.append_nil _
  | fault f => rw [tracedRun_fault e 0 h]
  | refused r => rw [tracedRun_refused e 0 h]

/-- The traced run has the outcome of the run (R219). -/
theorem tracedRun_snd (s : State) : (tracedRun e k s).2 = runSteps k s := by
  induction k generalizing s with
  | zero => rfl
  | succ k ih =>
    cases h : step s with
    | next t => rw [tracedRun_next e k h, runSteps_next k h, ih]
    | fault f => rw [tracedRun_fault e k h, runSteps_fault k h]
    | refused r => rw [tracedRun_refused e k h, runSteps_refused k h]

/-- A disabled port emits nothing along a run (R219). -/
theorem tracedRun_false_fst (s : State) : (tracedRun false k s).1 = [] := by
  induction k generalizing s with
  | zero => rfl
  | succ k ih =>
    cases h : step s with
    | next t => rw [tracedRun_next false k h, ih, tracePort_false, List.nil_append]
    | fault f => rw [tracedRun_fault false k h, tracePort_false]
    | refused r => rw [tracedRun_refused false k h, tracePort_false]

/-- An enabled port emits one record for each step that was made (R219, D15). -/
theorem tracedRun_true_length {k : Nat} (h : runSteps k s = .next t) : (tracedRun true k s).1.length = k := by
  induction k generalizing s with
  | zero => rfl
  | succ k ih =>
    obtain ⟨u, hs, hk⟩ := runSteps_succ_next h
    rw [tracedRun_next true k hs, tracePort_true_of_step hs, List.singleton_append, List.length_cons, ih hk]

/-- The records of a run that goes on are those up to a state it reaches, then those from there (R219). -/
theorem tracedRun_add_fst {k : Nat} (j : Nat) (h : runSteps k s = .next t) :
    (tracedRun e (k + j) s).1 = (tracedRun e k s).1 ++ (tracedRun e j t).1 := by
  induction k generalizing s with
  | zero => cases h; rw [Nat.zero_add]; rfl
  | succ k ih =>
    obtain ⟨u, hs, hk⟩ := runSteps_succ_next h
    rw [Nat.add_right_comm, tracedRun_next e (k + j) hs, tracedRun_next e k hs, ih hk, List.append_assoc]

end Trace

/-- Settles O42: the outcome and the silent port by induction on the steps; one step more than a run that reached `t`
adds what the port shows of `t`. -/
theorem tracingHasNoEffect : Obligations.TracingHasNoEffect :=
  ⟨tracedRun_snd, tracedRun_false_fst, fun k s t h =>
    ⟨tracedRun_true_length h, by rw [tracedRun_add_fst true 1 h, tracedRun_one_fst, tracePort_true]⟩⟩

/-! ### The exit code -/

/-- EXIT_ERROR is not 0, whatever integer is behind it (R6, D12). -/
theorem exitError_ne_zero : Config.exitError ≠ 0 := by
  unfold Config.exitError
  split
  · exact one_ne_zero
  · assumption

/-- Settles O43, by the run state: only Error's code is a free value, and that value is not 0. -/
theorem exitCodeIsZeroExactlyWhenHalted : Obligations.ExitCodeIsZeroExactlyWhenHalted := by
  intro r
  refine ⟨?_, ?_, fun _ _ _ _ => rfl⟩
  · cases r with
    | running | halted => simp [exitStatus]
    | error a c => simp [exitStatus, exitError_ne_zero]
  · cases r <;> simp [exitStatus]

end Sys2Proof.Machine

namespace Sys2Proof.Machine

/-! ### Reset and load -/

/-- A boot state is the reset state but for memory, which holds the image and zeros after it: an image that boots was
admitted (R38, R214, D11). -/
theorem eq_reset_and_byteAt_of_boot {image : List Nat} {s : State} (h : boot image = some s) :
    s = { State.reset with mem := s.mem } ∧ ∀ a : Addr, (s.byteAt a).toNat = image.getD a.toNat 0 := by
  obtain ⟨hload, hrefuse⟩ := loadPlacesTheImage image
  have hok : imageOk image := by
    by_contra hbad
    exact Option.some_ne_none s (h.symm.trans (hrefuse hbad))
  obtain ⟨t, ht, hframe, hbytes⟩ := hload hok
  obtain rfl : t = s := Option.some.inj (ht.symm.trans h)
  exact ⟨hframe, hbytes⟩

/-- Settles O41: the boot state runs from reset's address 0, where memory holds the head of the image. -/
theorem firstFetchIsTheFirstImageByte : Obligations.FirstFetchIsTheFirstImageByte := by
  intro v rest s h
  obtain ⟨hframe, hbytes⟩ := eq_reset_and_byteAt_of_boot h
  have hrun : s.run = .running := congrArg State.run hframe
  have hpc : s.pc = 0x00 := congrArg State.pc hframe
  exact ⟨hrun, hpc, congrArg s.byteAt hpc, hbytes 0x00⟩

end Sys2Proof.Machine
